-- ==== Sys2Proof/Word.lean ====
section
/-! DEFINITION. The widths of the block's registers and bus values (00_scope.md R6, 10_state.md R21 to R31). -/

namespace Sys2Proof

/-- A byte of the window, `remaining`, `value` (R6, R22, R23). -/
abbrev Byte := BitVec 8

/-- An RLE4 value, one half of a byte (R6, R9). -/
abbrev Nibble := BitVec 4

/-- A 32-bit unsigned register or output: `pos`, `col`, `row`, `W`, `H`, `LEN`, `raw` (R5, R27 to R29, R31). -/
abbrev Word := BitVec 32

end Sys2Proof
end

