-- ==== Sys2Proof/Config.lean ====
section
/-! DEFINITION. The configuration inputs the host latches at reset (00_scope.md R5, 10_state.md R20) and the two
parameters the spec leaves OPEN (92_eei_decisions.md D3, D20), as constants without a body. -/

namespace Sys2Proof

/-- `MODE`, 1 bit: which sub-decoder runs (R5). -/
inductive Mode where
  | rle8
  | rle4
  deriving DecidableEq, Repr

/-- The 1-bit code of `MODE`: 0 = RLE8, 1 = RLE4 (R5, D3). -/
def Mode.code : Mode → BitVec 1
  | .rle8 => 0
  | .rle4 => 1

/-- The four configuration inputs besides the window's contents (R5, R20). -/
structure Config where
  /-- `MODE`. -/
  mode : Mode
  /-- `W`, the image width. -/
  width : Word
  /-- `H`, the image height. -/
  height : Word
  /-- `LEN`, the length of the data window in bytes. -/
  len : Word
  deriving DecidableEq, Repr

/-- The legal ranges of R5: 1 ≤ W ≤ 2^31 − 1 and 1 ≤ H ≤ 2^31. `MODE` and `LEN` are legal at every value of their width.
They are the host's duty (R232); nothing in the block checks them (log 6). -/
abbrev Config.Legal (c : Config) : Prop :=
  1 ≤ c.width.toNat ∧ c.width.toNat ≤ 2 ^ 31 - 1 ∧ 1 ≤ c.height.toNat ∧ c.height.toNat ≤ 2 ^ 31

/-- The configuration of `State.reset`. DESIGN CHOICE (log 3): R35 gives "the host's values at reset"; the model names the
smallest legal image, RLE8, and an empty window. Unsafe: no claim may rest on it. -/
def Config.atReset : Config := { mode := .rle8, width := 1, height := 1, len := 0 }

/-- OPEN parameter `mode_of(compression, depth)` of D3 (I7): what the host does with an RLE compression tag that disagrees with the
bit depth. `none`: it builds no decoder. No body, so nothing can be proved about its values (log 10). -/
opaque Config.modeOfMismatch : (compression depth : Nat) → Option Mode

/-- OPEN parameter `height_min_i32_policy` of D20 (I8): whether the header layer admits a stored height of −2^31. No body (log 11). -/
opaque Config.admitsMinHeight : Bool

end Sys2Proof
end

