-- ==== Sys2Proof/Syntax.lean ====
section
/-! DEFINITION. The instructions: one constructor per row of spec/opcode_table.json (30_encoding.md R80). The payload of an
absolute run is not part of the opcode: micro-steps read it from the window (R74, R75). -/

namespace Sys2Proof

/-- The class of an opcode with its fields (R72, R73), the same in both modes. -/
inductive OpClass where
  /-- End of line, `(0, 0)`. -/
  | eol
  /-- End of bitmap, `(0, 1)`. -/
  | eob
  /-- Delta, `(0, 2)`. -/
  | delta
  /-- Absolute run `(0, N)`, `N = b1`. -/
  | abs (n : Byte)
  /-- Encoded run `(L, V)`, `L = b0`, `V = b1`. -/
  | run (l v : Byte)
  deriving DecidableEq, Repr

/-- The ten rows of the opcode map (R80): five classes in each of the two modes. -/
inductive Instr where
  /-- `RLE8.EOL`, R160. -/
  | rle8Eol
  /-- `RLE8.EOB`, R161. -/
  | rle8Eob
  /-- `RLE8.DELTA`, R162. -/
  | rle8Delta
  /-- `RLE8.ABS`, R122: literal count `n`. -/
  | rle8Abs (n : Byte)
  /-- `RLE8.RUN`, R120: run length `l`, run value `v`. -/
  | rle8Run (l v : Byte)
  /-- `RLE4.EOL`, R160. -/
  | rle4Eol
  /-- `RLE4.EOB`, R161. -/
  | rle4Eob
  /-- `RLE4.DELTA`, R162. -/
  | rle4Delta
  /-- `RLE4.ABS`, R143: literal count `n`. -/
  | rle4Abs (n : Byte)
  /-- `RLE4.RUN`, R141: run length `l`, run value `v`. -/
  | rle4Run (l v : Byte)
  deriving DecidableEq, Repr

/-- The mode whose sub-decoder the row belongs to (R80, column `mode`). -/
def Instr.mode : Instr → Mode
  | .rle8Eol => .rle8
  | .rle8Eob => .rle8
  | .rle8Delta => .rle8
  | .rle8Abs _ => .rle8
  | .rle8Run _ _ => .rle8
  | .rle4Eol => .rle4
  | .rle4Eob => .rle4
  | .rle4Delta => .rle4
  | .rle4Abs _ => .rle4
  | .rle4Run _ _ => .rle4

/-- The class the row stands for (R72, R80). -/
def Instr.opClass : Instr → OpClass
  | .rle8Eol => .eol
  | .rle8Eob => .eob
  | .rle8Delta => .delta
  | .rle8Abs n => .abs n
  | .rle8Run l v => .run l v
  | .rle4Eol => .eol
  | .rle4Eob => .eob
  | .rle4Delta => .delta
  | .rle4Abs n => .abs n
  | .rle4Run l v => .run l v

/-- The row's mnemonic in the opcode table (R80). -/
def Instr.mnemonic : Instr → String
  | .rle8Eol => "RLE8.EOL"
  | .rle8Eob => "RLE8.EOB"
  | .rle8Delta => "RLE8.DELTA"
  | .rle8Abs _ => "RLE8.ABS"
  | .rle8Run _ _ => "RLE8.RUN"
  | .rle4Eol => "RLE4.EOL"
  | .rle4Eob => "RLE4.EOB"
  | .rle4Delta => "RLE4.DELTA"
  | .rle4Abs _ => "RLE4.ABS"
  | .rle4Run _ _ => "RLE4.RUN"

end Sys2Proof
end

