-- ==== Sys2Proof/WellFormed.lean ====
section
/-! DEFINITION. Which instructions have an encoding: the field ranges of 30_encoding.md R73 and R80. -/

namespace Sys2Proof

/-- R73: 3 ≤ N ≤ 255 in `ABS`, and 1 ≤ L ≤ 255 in `RUN` (the upper bounds are the byte's). -/
def OpClass.wellFormed : OpClass → Bool
  | .eol => true
  | .eob => true
  | .delta => true
  | .abs n => decide (3 ≤ n.toNat)
  | .run l _ => decide (1 ≤ l.toNat)

/-- An instruction is well formed when its fields are in the ranges of R73. -/
def Instr.wellFormed (i : Instr) : Bool := i.opClass.wellFormed

end Sys2Proof
end

