-- ==== Sys2Proof/Decode.lean ====
section
/-! DEFINITION. Decoding of the two-byte opcodes (30_encoding.md R70 to R73, R80) and, after it, the encoder. -/

namespace Sys2Proof

/-- The class of `(b0, b1)`: the five conditions of R72 in their priority order, first match wins. -/
def classify (b0 b1 : Byte) : OpClass :=
  if b0 = 0 ∧ b1 = 0 then .eol
  else if b0 = 0 ∧ b1 = 1 then .eob
  else if b0 = 0 ∧ b1 = 2 then .delta
  else if b0 = 0 then .abs b1
  else .run b0 b1

/-- The row of the opcode map for a class in a mode (R80, R103). -/
def instrOf : Mode → OpClass → Instr
  | .rle8, .eol => .rle8Eol
  | .rle8, .eob => .rle8Eob
  | .rle8, .delta => .rle8Delta
  | .rle8, .abs n => .rle8Abs n
  | .rle8, .run l v => .rle8Run l v
  | .rle4, .eol => .rle4Eol
  | .rle4, .eob => .rle4Eob
  | .rle4, .delta => .rle4Delta
  | .rle4, .abs n => .rle4Abs n
  | .rle4, .run l v => .rle4Run l v

/-- The instruction of an opcode `(b0, b1)`: total on all 65536 values (R72, R78). -/
def decodeOpcode (m : Mode) (b0 b1 : Byte) : Instr := instrOf m (classify b0 b1)

/-- Why bytes decode to nothing. The stream has no illegal encoding (R78): the one reason is that an opcode needs two bytes. -/
inductive DecodeReject where
  /-- Fewer than two bytes (R102, "running out of source bytes mid-opcode"). -/
  | truncatedOpcode
  deriving DecidableEq, Repr

/-- Decode the opcode at the front of `bytes`: the instruction and the bytes after the opcode. `b0` is the first byte in
stream order (R53, R71). -/
def decode (m : Mode) : List Byte → Except DecodeReject (Instr × List Byte)
  | b0 :: b1 :: rest => .ok (decodeOpcode m b0 b1, rest)
  | [_] => .error .truncatedOpcode
  | [] => .error .truncatedOpcode

/-! ## The opcode map as rows (R80) -/

/-- A row of the opcode map: `OP` belongs to it when `OP` under `mask` is `pattern` and no earlier row of its mode matches. -/
structure OpcodeRow where
  mnemonic : String
  mode : Mode
  mask : BitVec 16
  pattern : BitVec 16
  deriving DecidableEq, Repr

/-- The ten rows in the priority order of R72, with the match and mask of R80. -/
def opcodeRows : List OpcodeRow :=
  [ ⟨"RLE8.EOL", .rle8, 0xFFFF, 0x0000⟩,
    ⟨"RLE8.EOB", .rle8, 0xFFFF, 0x0001⟩,
    ⟨"RLE8.DELTA", .rle8, 0xFFFF, 0x0002⟩,
    ⟨"RLE8.ABS", .rle8, 0xFF00, 0x0000⟩,
    ⟨"RLE8.RUN", .rle8, 0x0000, 0x0000⟩,
    ⟨"RLE4.EOL", .rle4, 0xFFFF, 0x0000⟩,
    ⟨"RLE4.EOB", .rle4, 0xFFFF, 0x0001⟩,
    ⟨"RLE4.DELTA", .rle4, 0xFFFF, 0x0002⟩,
    ⟨"RLE4.ABS", .rle4, 0xFF00, 0x0000⟩,
    ⟨"RLE4.RUN", .rle4, 0x0000, 0x0000⟩ ]

/-- The opcode word `OP = b0·256 + b1` (R71): `b0` in bits 15:8, `b1` in bits 7:0. -/
def opWord (b0 b1 : Byte) : BitVec 16 := b0 ++ b1

/-- The first row of mode `m` that matches `op` (R80: "With first-match order EOL, EOB, DELTA, ABS, RUN, a match/mask decoder
needs no constraint"). -/
def firstMatch (m : Mode) (op : BitVec 16) : Option OpcodeRow :=
  opcodeRows.find? fun r => r.mode = m && r.mask &&& op = r.pattern

/-! ## The encoder -/

/-- The two bytes of a class, from the layouts of R70 and R80. -/
def OpClass.bytes : OpClass → Byte × Byte
  | .eol => (0, 0)
  | .eob => (0, 1)
  | .delta => (0, 2)
  | .abs n => (0, n)
  | .run l v => (l, v)

/-- The opcode bytes of an instruction in stream order. -/
def encode (i : Instr) : List Byte := [i.opClass.bytes.1, i.opClass.bytes.2]

/-! ## Words as spec/opcode_table.json numbers them -/

/-- The longest record: `RLE8.ABS` with N = 255, that is 2 + 255 + 1 bytes (R74). -/
def maxRecordLength : Nat := 258

/-- The bytes of a word of `nbits` bits in the table's numbering `OP = b0·256 + b1` (R71): the byte in the top bits is the first. -/
def tableWordBytes (nbits w : Nat) : List Byte :=
  (List.range (nbits / 8)).map fun k => BitVec.ofNat 8 (w >>> (8 * (nbits / 8 - 1 - k)))

/-- The record a table word stands for: its bytes, then zero bytes up to the longest record. -/
def tableRecordBytes (nbits w : Nat) : List Byte :=
  tableWordBytes nbits w ++ List.replicate (maxRecordLength - nbits / 8) 0

/-- What the decoder reads from a table word. The stream holds no mode bit (R77) and the two modes' rows share their words, so
the decoder reads the word in the mode of `State.reset` (log 8). -/
def decodeTableWord (nbits w : Nat) : Option Instr :=
  match decode Config.atReset.mode (tableRecordBytes nbits w) with
  | .ok (i, _) => some i
  | .error _ => none

end Sys2Proof
end

