-- ==== Sys2Proof/Machine/State.lean ====
section
/-! DEFINITION. The state of the block as plain data (10_state.md R20 to R36), the reasons a step can stop, and reset (R35, R230). -/

namespace Sys2Proof.Machine

/-- `st` (R21). -/
inductive FsmState where
  /-- `Starting`: "await a 2-byte opcode". -/
  | starting
  /-- `Running`: "replay `value` `remaining` more times". -/
  | running
  /-- `Absolute`: "copy `remaining` more literal bytes/nibbles, with a trailing pad byte …". -/
  | absolute
  /-- END, `EndOfBitmap`: "terminal"; every way decoding ends. -/
  | ended
  deriving DecidableEq, Repr

/-- The 2-bit code of `st` (R21, D13). -/
def FsmState.code : FsmState → BitVec 2
  | .starting => 0b00
  | .running => 0b01
  | .absolute => 0b10
  | .ended => 0b11

/-- `cause` (R30, R200). Codes 5 to 7 are reserved and never written, so they have no constructor. -/
inductive Cause where
  /-- No end yet; the reset value. -/
  | none
  /-- End of bitmap, R161. -/
  | eob
  /-- Out of source bytes, R102, R106, R122, R123, R143, R144. -/
  | truncated
  /-- The delta escape, R162. -/
  | delta
  /-- An end of line in mid-row, R160. -/
  | eolMidrow
  deriving DecidableEq, Repr

/-- The 3-bit code of `cause` (R200, D12). -/
def Cause.code : Cause → BitVec 3
  | .none => 0
  | .eob => 1
  | .truncated => 2
  | .delta => 3
  | .eolMidrow => 4

/-- `PIXEL{x, y, raw}`: `resp_x`, `resp_y`, `resp_raw` (R31, R184). -/
structure Pixel where
  x : Word
  y : Word
  raw : Word
  deriving DecidableEq, Repr

/-- The answer to one call (R184). -/
inductive Response where
  /-- `PIXEL{x, y, raw}`. -/
  | pixel (p : Pixel)
  /-- `NONE`: no pixel. -/
  | none
  deriving DecidableEq, Repr

/-- The contents of the data window: the bytes that differ from 0x00, by rising offset (log 4). The canonical form is
`Memory.wf`. -/
abbrev Memory := List Host.Cell

/-- Everything the spec gives the block (R20 to R30), and the responses it has given. -/
structure State where
  /-- `MODE`, `W`, `H`, `LEN`, latched at reset (R20). -/
  cfg : Config
  /-- `MEM`, the contents of the data window (R20, R50). -/
  mem : Memory
  /-- `st` (R21). -/
  st : FsmState
  /-- `remaining` (R22). -/
  remaining : Byte
  /-- `value` (R23). -/
  value : Byte
  /-- `parity` (R24). -/
  parity : Bool
  /-- `padding` (R25). -/
  padding : Bool
  /-- `pos`, the byte cursor: this machine's program counter (R27). -/
  pos : Word
  /-- `col`, the row-position counter (R28). -/
  col : Word
  /-- `row`, the completed-row counter (R29). -/
  row : Word
  /-- `cause` (R30). -/
  cause : Cause
  /-- The model's own record of the output event `resp` (R31): one response per call, oldest first (log 2). -/
  resps : List Response
  deriving DecidableEq, Repr

/-- Why the machine stops with a fault. -/
inductive Fault where
  /-- A read `M[a]` with `a ≥ LEN`. Raised by the reads of the opcode fetch and of the literal steps, and only in a state that breaks
  R34: R51 says such a read never happens. Safe: the model stops where the spec gives no value (log 5). -/
  | readOutsideWindow (a : Nat)
  deriving DecidableEq, Repr

/-- Why the machine refuses an instruction. -/
inductive Refusal where
  /-- An instruction without a meaning. Raised by no arm: every row of the opcode table has its meaning. Safe. -/
  | notModelled (mnemonic : String)
  deriving DecidableEq, Repr

/-- The answer of a step of this machine. -/
abbrev Outcome := Host.Outcome State Fault Refusal

/-- Reset, "the construction of a decoder" (R230): every register at its value of R35, `MODE`, `W`, `H`, `LEN` and the window latched.
The host may do it at any time; the result does not depend on the state before (log 22). -/
def State.resetWith (cfg : Config) (mem : Memory) : State :=
  { cfg := cfg, mem := mem, st := .starting, remaining := 0, value := 0, parity := false, padding := false, pos := 0, col := 0,
    row := 0, cause := .none, resps := [] }

/-- The machine right after reset with the configuration of `Config.atReset` and nothing listed in memory (log 3). -/
def State.reset : State := State.resetWith Config.atReset []

end Sys2Proof.Machine
end

