-- ==== Sys2Proof/Machine/Ops.lean ====
section
/-! DEFINITION. The named operations over the window and the registers: the primitives of 00_scope.md R7, the emission of
40_fsm_core.md R105, and `raise End(c)` of 60_exceptions.md R201, this block's way of taking an exception. -/

namespace Sys2Proof.Machine

/-! ## The data window -/

/-- The byte at an offset: an offset the list does not name reads as 0x00 (log 4). -/
def Memory.read : Memory → Nat → Byte
  | [], _ => 0
  | (a, b) :: m, k => if a = k then b else Memory.read m k

/-- The window with one byte replaced, in canonical form. Only a loader writes; the block performs no writes (R55). -/
def Memory.write : Memory → Nat → Byte → Memory
  | [], k, v => if v = 0 then [] else [(k, v)]
  | (a, b) :: m, k, v =>
    if k < a then (if v = 0 then (a, b) :: m else (k, v) :: (a, b) :: m)
    else if k = a then (if v = 0 then m else (k, v) :: m)
    else (a, b) :: Memory.write m k v

/-- The window with bytes stored from an offset upward (a loader's operation). -/
def Memory.load : Memory → Nat → List Byte → Memory
  | m, _, [] => m
  | m, a, b :: bs => Memory.load (Memory.write m a b) (a + 1) bs

/-- The window that holds exactly `bytes` from offset `a` upward. -/
def Memory.ofBytesFrom : Nat → List Byte → Memory
  | _, [] => []
  | a, b :: bs => if b = 0 then Memory.ofBytesFrom (a + 1) bs else (a, b) :: Memory.ofBytesFrom (a + 1) bs

/-- The window that holds exactly `bytes` (R50: offset 0 is the first byte). -/
def Memory.ofBytes (bytes : List Byte) : Memory := Memory.ofBytesFrom 0 bytes

/-- Every offset listed is at least `lo`, offsets rise strictly, and no listed byte is 0x00. -/
def Memory.wfFrom : Nat → Memory → Bool
  | _, [] => true
  | lo, (a, b) :: m => decide (lo ≤ a) && decide (b ≠ 0) && Memory.wfFrom (a + 1) m

/-- The canonical form: strictly rising offsets and no entry equal to what an unlisted offset reads as. -/
def Memory.wf (m : Memory) : Bool := Memory.wfFrom 0 m

/-- Every listed offset lies in a window of `len` bytes (R50). -/
def Memory.within (m : Memory) (len : Nat) : Bool := m.all fun c => decide (c.1 < len)

/-- `M[a]` (R7, R51): the byte at offset `a` of the window, and nothing outside it. -/
def State.byteAt (s : State) (a : Nat) : Option Byte :=
  if a < s.cfg.len.toNat then some (s.mem.read a) else none

/-- `Avail(n)` (R7): at least `n` unread bytes remain at the cursor; exact over the naturals (R6). -/
def State.avail (s : State) (n : Nat) : Bool := decide (s.pos.toNat + n ≤ s.cfg.len.toNat)

/-- The byte at the cursor, `M[pos]`. -/
def State.cursorByte (s : State) : Option Byte := s.byteAt s.pos.toNat

/-! ## The registers -/

/-- `pos <- pos + n` (R27). -/
def State.advance (s : State) (n : Nat) : State := { s with pos := s.pos + BitVec.ofNat 32 n }

/-- `done` (R29): the position stage has produced all `W·H` positions. -/
def State.done (s : State) : Bool := decide (s.row = s.cfg.height)

/-- The answer to the call in progress (R184), kept in the response record (log 2). -/
def State.respond (s : State) (r : Response) : State := { s with resps := s.resps ++ [r] }

/-! ## Emission (R105) -/

/-- Whether the pixel about to be emitted is the last of its row: `col + 1 = W`, exact over the naturals (R6, R105). -/
def State.atRowEnd (s : State) : Bool := decide (s.col.toNat + 1 = s.cfg.width.toNat)

/-- `col` after an emission (R105). -/
def State.nextCol (s : State) : Word := if s.atRowEnd then 0 else s.col + 1

/-- `row` after an emission (R105). -/
def State.nextRow (s : State) : Word := if s.atRowEnd then s.row + 1 else s.row

/-- The position of the emission, before the counters advance, with its value: `x = col`, `y = H − 1 − row` (R180). -/
def State.pixelHere (s : State) (raw : Word) : Pixel := { x := s.col, y := s.cfg.height - 1 - s.row, raw := raw }

/-- `emit(v)` (R7, R105): answer the call with the pixel at the present position, then advance the counters. -/
def State.emit (s : State) (raw : Word) : State :=
  { s with resps := s.resps ++ [.pixel (s.pixelHere raw)], col := s.nextCol, row := s.nextRow }

/-! ## Ending (R201) -/

/-- `raise End(c)` (R201): `st` and `cause` are written, all else is frozen, and the call ends with `NONE` (R108). There is no
return from END (R206): only `State.resetWith` leaves it. -/
def State.raiseEnd (s : State) (c : Cause) : State := { s with st := .ended, cause := c, resps := s.resps ++ [.none] }

/-! ## Placing a record for the next fetch -/

/-- The offset a record of `n` bytes is placed at: the cursor, or 0 where a window of 2^32 − 1 bytes has no room there. -/
def State.placeAt (s : State) (n : Nat) : Nat := if s.pos.toNat + n < 2 ^ 32 then s.pos.toNat else 0

/-- `s` with `bytes` in the window where the next micro-step fetches, the window long enough to hold them, the machine in STARTING
and the image not yet complete, so that the next step is the opcode fetch of R102. It stands for the host's load of a window
(log 7). -/
def State.placeRecord (s : State) (bytes : List Byte) : State :=
  let p := s.placeAt bytes.length
  { s with
    st := .starting
    pos := BitVec.ofNat 32 p
    row := if s.row = s.cfg.height then 0 else s.row
    mem := s.mem.load p bytes
    cfg := { s.cfg with len := BitVec.ofNat 32 (max s.cfg.len.toNat (p + bytes.length)) } }

end Sys2Proof.Machine
end

