-- ==== Sys2Proof/Machine/Escapes.lean ====
section
/-! DEFINITION. The escape opcodes, which behave the same in both modes (43_escapes.md R160 to R162). Each meaning runs after the
opcode fetch has set `pos` to the opcode's offset + 2 (R102). -/

namespace Sys2Proof.Machine

/-- End of line (R160): nothing at row start, and the call goes on; otherwise `End(EOL_MIDROW)`. -/
def endOfLine (s : State) : Outcome := .next (if s.col = 0 then s else s.raiseEnd .eolMidrow)

/-- `RLE8.EOL` (R160). -/
def execRle8Eol (s : State) : Outcome := endOfLine s

/-- `RLE4.EOL` (R160). -/
def execRle4Eol (s : State) : Outcome := endOfLine s

/-- `RLE8.EOB` (R161). -/
def execRle8Eob (s : State) : Outcome := .next (s.raiseEnd .eob)

/-- `RLE4.EOB` (R161). -/
def execRle4Eob (s : State) : Outcome := .next (s.raiseEnd .eob)

/-- `RLE8.DELTA` (R162): unsupported; decoding ends immediately and nothing after the opcode is read. -/
def execRle8Delta (s : State) : Outcome := .next (s.raiseEnd .delta)

/-- `RLE4.DELTA` (R162). -/
def execRle4Delta (s : State) : Outcome := .next (s.raiseEnd .delta)

end Sys2Proof.Machine
end

