-- ==== Sys2Proof/Machine/Flags.lean ====
section
/-! DEFINITION. The flags `parity` and `padding` (10_state.md R24, R25), the nibble selector computed from them (42_rle4.md R140),
and the STATUS word (10_state.md R32). -/

namespace Sys2Proof.Machine

/-- `odd(k)` (R6). -/
def odd (k : Nat) : Bool := decide (k % 2 = 1)

/-- `ceil(n/2)`, that is `(n + 1) div 2` (R6). -/
def ceilHalf (n : Nat) : Nat := (n + 1) / 2

/-- `parity` of a run or absolute run of `n` values (R24). -/
def parityOf (n : Byte) : Bool := odd n.toNat

/-- `padding` of an RLE8 absolute run (R25, R122). -/
def padding8 (n : Byte) : Bool := odd n.toNat

/-- `padding` of an RLE4 absolute run (R25, R143). -/
def padding4 (n : Byte) : Bool := odd (ceilHalf n.toNat)

/-- `want_left(k, p)` for `k ≥ 1` (R140): whether the step takes the high nibble. -/
def wantLeft (k : Nat) (p : Bool) : Bool := odd (k - 1) != p

/-- `want_left` of the present registers. -/
def State.wantsLeft (s : State) : Bool := wantLeft s.remaining.toNat s.parity

/-- The STATUS word (R32): `ST` in bits 1:0, `CAUSE` in 4:2, `DONE` in 5, bits 7:6 read as 0. -/
def State.status (s : State) : BitVec 8 :=
  (0 : BitVec 2) ++ (if s.done then (1 : BitVec 1) else 0) ++ s.cause.code ++ s.st.code

end Sys2Proof.Machine
end

