-- ==== Sys2Proof/Machine/Operands.lean ====
section
/-! DEFINITION. The operand forms: how a value is taken from a byte and widened (00_scope.md R6, R7; 41_rle8.md; 42_rle4.md). -/

namespace Sys2Proof.Machine

/-- `b[7:4]` (R6, R9). -/
def highNibble (b : Byte) : Nibble := b.extractLsb' 4 4

/-- `b[3:0]` (R6, R9). -/
def lowNibble (b : Byte) : Nibble := b.extractLsb' 0 4

/-- The nibble an RLE4 step takes: high when `left`, else low (R140). -/
def selectNibble (left : Bool) (b : Byte) : Nibble := if left then highNibble b else lowNibble b

/-- `zext_32` of a byte, the raw value of an RLE8 emission (R7, R125). -/
def rawOfByte (b : Byte) : Word := b.setWidth 32

/-- `zext_32` of a nibble, the raw value of an RLE4 emission (R7, R148). -/
def rawOfNibble (n : Nibble) : Word := n.setWidth 32

end Sys2Proof.Machine
end

