-- ==== Sys2Proof/Machine/Rle4.lean ====
section
/-! DEFINITION. The RLE4 sub-decoder (42_rle4.md R140 to R144). -/

namespace Sys2Proof.Machine

/-- `RLE4.RUN`, the opcode part (R141): value 0 takes the high nibble. -/
def execRle4Run (l v : Byte) (s : State) : Outcome :=
  .next { s.emit (rawOfNibble (highNibble v)) with remaining := l - 1, value := v, parity := parityOf l, st := .running }

/-- An RLE4 run emission, RUNNING with `remaining ≥ 1` (R142). -/
def rle4RunEmission (s : State) : Outcome :=
  .next { s.emit (rawOfNibble (selectNibble s.wantsLeft s.value)) with remaining := s.remaining - 1 }

/-- Emit the high nibble of the byte at the cursor, or end decoding where the window has none; `k` says what else is written. The
part R143 and the high-nibble branch of R144 share. -/
def rle4HighLiteral (s : State) (k : State → State) : Outcome :=
  if s.avail 1 then
    match s.cursorByte with
    | some b => .next (k (s.emit (rawOfNibble (highNibble b))))
    | none => .fault (.readOutsideWindow s.pos.toNat)
  else .next (s.raiseEnd .truncated)

/-- Emit the low nibble of the byte at the cursor and consume the byte (R144). No availability check: the byte was read by the step
before (R34); in a state that breaks R34 the read faults (log 5). -/
def rle4LowLiteral (s : State) : Outcome :=
  match s.cursorByte with
  | some b => .next { (s.emit (rawOfNibble (lowNibble b))).advance 1 with remaining := s.remaining - 1 }
  | none => .fault (.readOutsideWindow s.pos.toNat)

/-- `RLE4.ABS`, the opcode part with literal 0 (R143): `pos` stays on the first literal byte. -/
def execRle4Abs (n : Byte) (s : State) : Outcome :=
  rle4HighLiteral s fun t =>
    { t with remaining := n - 1, parity := parityOf n, padding := padding4 n, st := .absolute }

/-- An RLE4 absolute emission, ABSOLUTE with `remaining = k ≥ 1` (R144): a high nibble is consumed only when it is the last
literal (`k = 1`). -/
def rle4AbsEmission (s : State) : Outcome :=
  if s.wantsLeft then
    rle4HighLiteral s fun t =>
      let u := { t with remaining := s.remaining - 1 }
      if s.remaining = 1 then u.advance 1 else u
  else rle4LowLiteral s

end Sys2Proof.Machine
end

