-- ==== Sys2Proof/Machine/Rle8.lean ====
section
/-! DEFINITION. The RLE8 sub-decoder (41_rle8.md R120 to R123). -/

namespace Sys2Proof.Machine

/-- `RLE8.RUN`, the opcode part (R120). -/
def execRle8Run (l v : Byte) (s : State) : Outcome :=
  .next { s.emit (rawOfByte v) with remaining := l - 1, value := v, parity := parityOf l, st := .running }

/-- An RLE8 run emission, RUNNING with `remaining ≥ 1` (R121). -/
def rle8RunEmission (s : State) : Outcome :=
  .next { s.emit (rawOfByte s.value) with remaining := s.remaining - 1 }

/-- Emit the literal byte at the cursor and consume it, or end decoding where the window has none: the part R122 and R123 share. -/
def rle8Literal (s : State) (k : State → State) : Outcome :=
  if s.avail 1 then
    match s.cursorByte with
    | some b => .next (k ((s.emit (rawOfByte b)).advance 1))
    | none => .fault (.readOutsideWindow s.pos.toNat)
  else .next (s.raiseEnd .truncated)

/-- `RLE8.ABS`, the opcode part with literal 0 (R122). -/
def execRle8Abs (n : Byte) (s : State) : Outcome :=
  rle8Literal s fun t =>
    { t with remaining := n - 1, parity := parityOf n, padding := padding8 n, st := .absolute }

/-- An RLE8 absolute emission, ABSOLUTE with `remaining ≥ 1` (R123). -/
def rle8AbsEmission (s : State) : Outcome :=
  rle8Literal s fun t => { t with remaining := s.remaining - 1 }

end Sys2Proof.Machine
end

