-- ==== Sys2Proof/Machine/Dispatch.lean ====
section
/-! DEFINITION. One arm per instruction: the class dispatch after the opcode fetch (40_fsm_core.md R103). -/

namespace Sys2Proof.Machine

def exec (i : Instr) (s : State) : Host.Outcome State Fault Refusal :=
  match i with
  | .rle8Eol => Sys2Proof.Machine.execRle8Eol s
  | .rle8Eob => Sys2Proof.Machine.execRle8Eob s
  | .rle8Delta => Sys2Proof.Machine.execRle8Delta s
  | .rle8Abs n => Sys2Proof.Machine.execRle8Abs n s
  | .rle8Run l v => Sys2Proof.Machine.execRle8Run l v s
  | .rle4Eol => Sys2Proof.Machine.execRle4Eol s
  | .rle4Eob => Sys2Proof.Machine.execRle4Eob s
  | .rle4Delta => Sys2Proof.Machine.execRle4Delta s
  | .rle4Abs n => Sys2Proof.Machine.execRle4Abs n s
  | .rle4Run l v => Sys2Proof.Machine.execRle4Run l v s

end Sys2Proof.Machine
end

