-- ==== Sys2Proof/Machine/Fsm.lean ====
section
/-! DEFINITION. The state machine around the opcodes: fetch, epilogues, the dispatch of a micro-step, and one step of the call in
progress (40_fsm_core.md R101 to R108). -/

namespace Sys2Proof.Machine

/-- The opcode fetch (R102), STARTING: two bytes at the cursor, `pos + 2`, and the class rule in the same micro-step (R103). With
fewer than two bytes, `End(TRUNCATED)` with `pos` unchanged and no byte read. -/
def opcodeFetch (s : State) : Outcome :=
  if s.avail 2 then
    match s.byteAt s.pos.toNat, s.byteAt (s.pos.toNat + 1) with
    | some b0, some b1 => exec (decodeOpcode s.cfg.mode b0 b1) (s.advance 2)
    | _, _ => .fault (.readOutsideWindow s.pos.toNat)
  else .next (s.raiseEnd .truncated)

/-- The run epilogue (R104), RUNNING with `remaining = 0`. -/
def runEpilogue (s : State) : Outcome := .next { s with st := .starting }

/-- The absolute epilogue (R106), ABSOLUTE with `remaining = 0`: the pad byte is consumed and its value never examined (R76). -/
def absEpilogue (s : State) : Outcome :=
  if s.padding then
    if s.avail 1 then .next { s.advance 1 with st := .starting } else .next (s.raiseEnd .truncated)
  else .next { s with st := .starting }

/-- A run emission by mode (R101). -/
def runEmission (s : State) : Outcome :=
  match s.cfg.mode with
  | .rle8 => rle8RunEmission s
  | .rle4 => rle4RunEmission s

/-- An absolute emission by mode (R101). -/
def absEmission (s : State) : Outcome :=
  match s.cfg.mode with
  | .rle8 => rle8AbsEmission s
  | .rle4 => rle4AbsEmission s

/-- One micro-step (R100), dispatched on `st`, `remaining` and `MODE` (R101). In END no micro-step is enabled and nothing is
written (R107). -/
def microStep (s : State) : Outcome :=
  match s.st with
  | .starting => opcodeFetch s
  | .running => if s.remaining = 0 then runEpilogue s else runEmission s
  | .absolute => if s.remaining = 0 then absEpilogue s else absEmission s
  | .ended => .next s

/-- One step of the call in progress (R108): a call made when `done` holds or in END runs no micro-step and answers `NONE`;
otherwise one micro-step, which answers the call if it emits or ends decoding, and leaves it in progress if not (log 1). -/
def callStep (s : State) : Outcome :=
  if s.done ∨ s.st = .ended then .next (s.respond .none) else microStep s

end Sys2Proof.Machine
end

