-- ==== Sys2Proof/Machine/Step.lean ====
section
/-! DEFINITION. The step of the machine, and the placing of an instruction word where the next step fetches it. -/

namespace Sys2Proof.Machine

/-- One step: one micro-step of the call in progress, or the `NONE` of a call that runs none (R100, R108; log 1). -/
def step (s : State) : Host.Outcome State Fault Refusal := callStep s

/-- `s` with the record of a table word where the next step fetches (log 7, log 8). -/
def State.withFetchWord (s : State) (nbits w : Nat) : State := s.placeRecord (tableRecordBytes nbits w)

end Sys2Proof.Machine
end

