-- ==== Sys2Proof/Machine/Record.lean ====
section
/-! DEFINITION. The extent of a record in the stream and where its literals lie (30_encoding.md R74, R75, R77). -/

namespace Sys2Proof.Machine

/-- 0 or 1, as the formulas of R70, R74 and R75 add `odd(k)` to a length. -/
def oddCount (k : Nat) : Nat := (odd k).toNat

/-- The literal bytes of an absolute run of `n` values: `N` in RLE8 (R74), `ceil(N/2)` in RLE4 (R75). -/
def literalBytes : Mode → Nat → Nat
  | .rle8, n => n
  | .rle4, n => ceilHalf n

/-- The payload of an absolute run: its literal bytes and the pad byte that follows an odd number of them (R74, R75). -/
def payloadLength (m : Mode) (n : Nat) : Nat := literalBytes m n + oddCount (literalBytes m n)

/-- The length of a record, from its opcode alone (R77). -/
def recordLength (i : Instr) : Nat :=
  match i.opClass with
  | .eol => 2
  | .eob => 2
  | .delta => 2
  | .abs n => 2 + payloadLength i.mode n.toNat
  | .run _ _ => 2

/-- Literal `j` of the RLE8 absolute run whose opcode is at offset `a` (R74), as a raw value. -/
def literal8 (mem : Memory) (a j : Nat) : Word := rawOfByte (mem.read (a + 2 + j))

/-- Literal `j` of the RLE4 absolute run whose opcode is at offset `a` (R75), as a raw value. -/
def literal4 (mem : Memory) (a j : Nat) : Word :=
  rawOfNibble (selectNibble (!odd j) (mem.read (a + 2 + j / 2)))

/-- Value `j` of an RLE4 encoded run of value `v` (R142, R147), as a raw value. -/
def runNibble (v : Byte) (j : Nat) : Word := rawOfNibble (selectNibble (!odd j) v)

end Sys2Proof.Machine
end

