-- ==== Sys2Proof/Machine/Assembler.lean ====
section
/-! DEFINITION. The assembler statements (30_encoding.md R81) as bytes of the stream. -/

namespace Sys2Proof.Machine

/-- One assembler statement (R81). -/
inductive Stmt where
  /-- `RUN L, V`. -/
  | run (l v : Byte)
  /-- `EOL`. -/
  | eol
  /-- `EOB`. -/
  | eob
  /-- `DELTA`. -/
  | delta
  /-- `ABS8 l0, …`. -/
  | abs8 (literals : List Byte)
  /-- `ABS4 n0, …`. -/
  | abs4 (literals : List Nibble)
  /-- `.byte b, …`. -/
  | bytes (raw : List Byte)
  deriving DecidableEq, Repr

/-- The ranges R81 requires. -/
def Stmt.legal : Stmt → Bool
  | .run l _ => decide (1 ≤ l.toNat)
  | .eol => true
  | .eob => true
  | .delta => true
  | .abs8 ls => decide (3 ≤ ls.length) && decide (ls.length ≤ 255)
  | .abs4 ns => decide (3 ≤ ns.length) && decide (ns.length ≤ 255)
  | .bytes _ => true

/-- Nibbles packed high first, "the unused low nibble written as 0 when N is odd" (R81). -/
def packNibbles : List Nibble → List Byte
  | [] => []
  | [n] => [n ++ (0 : Nibble)]
  | n0 :: n1 :: ns => (n0 ++ n1) :: packNibbles ns

/-- Bytes followed by the pad byte 0x00 when their number is odd (R81). -/
def padded (bs : List Byte) : List Byte := if odd bs.length then bs ++ [0] else bs

/-- The bytes a statement emits into the stream (R81). -/
def Stmt.assemble : Stmt → List Byte
  | .run l v => [l, v]
  | .eol => [0x00, 0x00]
  | .eob => [0x00, 0x01]
  | .delta => [0x00, 0x02]
  | .abs8 ls => 0x00 :: BitVec.ofNat 8 ls.length :: padded ls
  | .abs4 ns => 0x00 :: BitVec.ofNat 8 ns.length :: padded (packNibbles ns)
  | .bytes raw => raw

/-- A stream program: its statements one after another, with no gap (R70). -/
def assemble (prog : List Stmt) : List Byte := prog.flatMap Stmt.assemble

end Sys2Proof.Machine
end

