-- ==== Sys2Proof/Machine/Call.lean ====
section
/-! DEFINITION. The call, the run and its observation (40_fsm_core.md R108, R109; 44_pixel_output.md R184, R185). -/

namespace Sys2Proof.Machine

/-- The bound of R109 on the micro-steps of a call made in `s`. -/
def State.callBound (s : State) : Nat := 2 + (s.cfg.len.toNat - s.pos.toNat) / 2

/-- Steps until one answers the call (R108: "run one micro-step" until it emitted or END is reached). `fuel` bounds the steps; R109
says that `callBound` is enough (log 16). -/
def callLoop : Nat → State → Outcome
  | 0, s => .next s
  | fuel + 1, s =>
    match step s with
    | .next t => if t.resps.length = s.resps.length then callLoop fuel t else .next t
    | .fault r => .fault r
    | .refused r => .refused r

/-- One call, `next_req` (R108). -/
def call (s : State) : Outcome := callLoop s.callBound s

/-- The pixels answered so far, in order. -/
def State.pixels (s : State) : List Pixel :=
  s.resps.filterMap fun r => match r with
    | .pixel p => some p
    | .none => none

/-- Whether the last response was `NONE`, which ends a run (R185). -/
def State.runEnded (s : State) : Bool := decide (s.resps.getLast? = some .none)

/-- Calls, up to the first that answers `NONE` and at most `k` of them (R185, R233: one at a time). -/
def runCalls : Nat → State → Outcome
  | 0, s => .next s
  | k + 1, s =>
    match call s with
    | .next t => if t.runEnded then .next t else runCalls k t
    | .fault r => .fault r
    | .refused r => .refused r

/-- The observation of a run (R185): the pixels before the first `NONE`, and the state when it is returned. -/
structure Observation where
  pixels : List Pixel
  st : FsmState
  cause : Cause
  pos : Word
  col : Word
  row : Word
  remaining : Byte
  value : Byte
  parity : Bool
  padding : Bool
  deriving DecidableEq, Repr

/-- The observation read from a state (R185). -/
def State.observation (s : State) : Observation :=
  { pixels := s.pixels, st := s.st, cause := s.cause, pos := s.pos, col := s.col, row := s.row, remaining := s.remaining,
    value := s.value, parity := s.parity, padding := s.padding }

end Sys2Proof.Machine
end

