-- ==== Sys2Proof/Machine/Interface.lean ====
section
/-! DEFINITION. The signals of the abstract interface (10_state.md R31, R32): the read-only outputs and the byte read port. `rst` is
`State.resetWith`; `next_req` is `call`; `resp` is the last entry of `resps`. -/

namespace Sys2Proof.Machine

/-- `status` and the `dbg_*` outputs (R31), each at its width. -/
structure Outputs where
  status : BitVec 8
  dbgPos : BitVec 32
  dbgCol : BitVec 32
  dbgRow : BitVec 32
  dbgRemaining : BitVec 8
  dbgValue : BitVec 8
  dbgParity : BitVec 1
  dbgPadding : BitVec 1
  deriving DecidableEq, Repr

/-- The outputs show the registers and never change them (R31). -/
def State.outputs (s : State) : Outputs :=
  { status := s.status, dbgPos := s.pos, dbgCol := s.col, dbgRow := s.row, dbgRemaining := s.remaining, dbgValue := s.value,
    dbgParity := BitVec.ofBool s.parity, dbgPadding := BitVec.ofBool s.padding }

/-- `resp` of the call just answered (R31, R184). -/
def State.lastResponse (s : State) : Option Response := s.resps.getLast?

/-- The raw value produced for a position, if any: a pixel never produced has no value at all (I6, R186). -/
def State.pixelAt (s : State) (x y : Word) : Option Word :=
  (s.pixels.find? fun p => p.x = x && p.y = y).map Pixel.raw

/-! ## The byte read port: `mem_addr` and `mem_data` (R31, R51) -/

/-- One use of the port: the offset on `mem_addr`, and `mem_data = M[mem_addr]`. -/
structure PortRead where
  memAddr : BitVec 32
  memData : BitVec 8
  deriving DecidableEq, Repr

/-- The use of the port by a rule's `M[a]`: a read inside the window, and no use of the port outside it (R51). -/
def State.readAt (s : State) (a : Nat) : List PortRead :=
  match s.byteAt a with
  | some b => [⟨BitVec.ofNat 32 a, b⟩]
  | none => []

/-- The reads of an opcode's own rule, made after the fetch has moved the cursor: literal 0 of an absolute run (R122, R143). -/
def opcodeReads (i : Instr) (s : State) : List PortRead :=
  match i with
  | .rle8Eol => []
  | .rle8Eob => []
  | .rle8Delta => []
  | .rle8Abs _ => s.readAt s.pos.toNat
  | .rle8Run _ _ => []
  | .rle4Eol => []
  | .rle4Eob => []
  | .rle4Delta => []
  | .rle4Abs _ => s.readAt s.pos.toNat
  | .rle4Run _ _ => []

/-- The reads of the opcode fetch and of the rule it goes on with (R102, R103): none with fewer than two bytes left. -/
def fetchReads (s : State) : List PortRead :=
  match s.byteAt s.pos.toNat, s.byteAt (s.pos.toNat + 1) with
  | some b0, some b1 =>
    s.readAt s.pos.toNat ++ s.readAt (s.pos.toNat + 1) ++ opcodeReads (decodeOpcode s.cfg.mode b0 b1) (s.advance 2)
  | _, _ => []

/-- The reads of a micro-step, by the dispatch of R101. The epilogues and the run emissions read nothing; the pad byte is consumed
without a read (log 17). -/
def microReads (s : State) : List PortRead :=
  match s.st with
  | .starting => fetchReads s
  | .running => []
  | .absolute => if s.remaining = 0 then [] else s.readAt s.pos.toNat
  | .ended => []

/-- The uses of the port by the next step, in their order: the `mem_addr` outputs with the bytes that answer them (R31; log 13). A call
made when `done` holds or in END reads nothing (R183). -/
def State.portReads (s : State) : List PortRead := if s.done ∨ s.st = .ended then [] else microReads s

/-- The offsets the next step puts on `mem_addr`, in their order. -/
def State.memAddrs (s : State) : List Nat := s.portReads.map fun r => r.memAddr.toNat

end Sys2Proof.Machine
end

