-- ==== Sys2Proof/Machine/Launch.lean ====
section
/-! DEFINITION. What the host does before reset (70_reset_and_hazards.md R232): from the results of header parsing and view construction
to the reset state of a decoder. Header parsing itself is out of scope (00_scope.md R4). -/

namespace Sys2Proof.Machine

/-- The results of the header layer that R232 names. -/
structure Header where
  /-- Compression method tag: 1 = RLE8, 2 = RLE4 (R5). -/
  compression : Nat
  /-- Bits per pixel. -/
  depth : Nat
  /-- The stored width, a signed 32-bit field (R5). -/
  width : BitVec 32
  /-- The stored height, a signed 32-bit field (R5); its sign is the row-order flag, which the block never sees (R181). -/
  storedHeight : BitVec 32
  /-- The declared data length, a 4-byte field (R5). -/
  dataLength : BitVec 32
  /-- The pixel-data offset in the file. -/
  dataOffset : Nat
  /-- The input buffer. -/
  buffer : List Byte
  deriving DecidableEq, Repr

/-- `MODE` from the compression tag (R5, R232 step 3). Where tag and depth disagree the spec leaves the host's choice OPEN
(D3): the answer is the opaque `Config.modeOfMismatch` (log 10). -/
def Header.mode (h : Header) : Option Mode :=
  if h.compression = 1 ∧ h.depth = 8 then some .rle8
  else if h.compression = 2 ∧ h.depth = 4 then some .rle4
  else if h.compression = 1 ∨ h.compression = 2 then Config.modeOfMismatch h.compression h.depth
  else none

/-- `H` = |stored height| (R232 step 4); 2^31 stands for a stored −2^31 (D20). -/
def Header.height (h : Header) : Word := BitVec.ofNat 32 h.storedHeight.toInt.natAbs

/-- The header layer's demands on the dimensions: width > 0 and height ≠ 0 (R5). Whether a stored −2^31 is admitted is OPEN (log 11). -/
def Header.dimensionsAdmitted (h : Header) : Bool :=
  decide (0 < h.width.toInt) && decide (h.storedHeight.toInt ≠ 0) &&
    (decide (h.storedHeight.toInt ≠ -(2 ^ 31)) || Config.admitsMinHeight)

/-- The pixel-data slice lies in the buffer (R52, R232 step 5). -/
def Header.sliceInBounds (h : Header) : Bool := decide (h.dataOffset + h.dataLength.toNat ≤ h.buffer.length)

/-- The `LEN` bytes at the pixel-data offset (R232 step 5). -/
def Header.window (h : Header) : List Byte := (h.buffer.drop h.dataOffset).take h.dataLength.toNat

/-- Build and reset a decoder for a header (R230, R232); `none` where no decoder is built (log 21). -/
def launch (h : Header) : Option State :=
  if h.dimensionsAdmitted && h.sliceInBounds then
    h.mode.map fun m =>
      State.resetWith { mode := m, width := h.width, height := h.height, len := h.dataLength } (Memory.ofBytes h.window)
  else none

end Sys2Proof.Machine
end

