-- ==== Sys2Proof/Safety.lean ====
section
/-! DEFINITION. What counts as a good state of the block: the ranges of 10_state.md R34, the part of them that every micro-step needs to
keep them (40_fsm_core.md R110), and the laws of the response record (44_pixel_output.md R180 to R186). -/

namespace Sys2Proof.Machine

/-- The host kept its duties: a legal configuration (R5, R232) and a window in canonical form inside its length (R50). -/
structure State.Launched (s : State) : Prop where
  config : s.cfg.Legal
  memWf : s.mem.wf = true
  memWithin : s.mem.within s.cfg.len.toNat = true

/-- The literal bytes of the present absolute run that are still to be consumed: in RLE8 one for each literal; in RLE4, with `k` literals
left, `ceil(k/2)` when a high nibble is next and one more than `ceil((k−1)/2)` when a low nibble is next (R144). -/
def State.literalBytesLeft (s : State) : Nat :=
  match s.cfg.mode with
  | .rle8 => s.remaining.toNat
  | .rle4 =>
    if s.remaining = 0 then 0
    else if s.wantsLeft then ceilHalf s.remaining.toNat
    else 1 + ceilHalf (s.remaining.toNat - 1)

/-- What `pos` must satisfy in each `st` for R110 to hold at the next STARTING: a whole number of byte pairs up to the end of the
record. -/
def State.aligned (s : State) : Bool :=
  match s.st with
  | .starting => decide (s.pos.toNat % 2 = 0)
  | .running => decide (s.pos.toNat % 2 = 0)
  | .absolute => decide ((s.pos.toNat + s.literalBytesLeft + s.padding.toNat) % 2 = 0)
  | .ended => true

/-- The range invariants of R34, with the alignment of R110 in the form every step keeps, `col` at 0 once the image is complete (R182:
`done` holds right after the emission at `(W − 1, 0)`), and `cause` NONE exactly outside END (R30). -/
structure State.InRange (s : State) : Prop where
  pos : s.pos.toNat ≤ s.cfg.len.toNat
  col : s.col.toNat < s.cfg.width.toNat
  row : s.row.toNat ≤ s.cfg.height.toNat
  colWhenDone : s.row = s.cfg.height → s.col = 0
  remaining : (s.st = .running ∨ s.st = .absolute) → s.remaining.toNat ≤ 254
  lowNibble : s.st = .absolute → s.cfg.mode = .rle4 → s.remaining ≠ 0 → s.wantsLeft = false →
    s.pos.toNat < s.cfg.len.toNat
  aligned : s.aligned = true
  cause : s.st = .ended ↔ s.cause ≠ .none

/-- The invariant of the block: the host's duties and the ranges. -/
structure State.Inv (s : State) : Prop where
  launched : s.Launched
  inRange : s.InRange

/-- The number of pixels the counters stand for: `row` full rows and `col` more (R28, R29). -/
def State.emitted (s : State) : Nat := s.row.toNat * s.cfg.width.toNat + s.col.toNat

/-- The `j`-th position of the bottom-up order of R180 in an image `c.width` wide and `c.height` high. -/
def positionAt (c : Config) (j : Nat) : Nat × Nat :=
  (j % c.width.toNat, c.height.toNat - 1 - j / c.width.toNat)

/-- R186: the pixels answered are the first `m` positions of the bottom-up order, each exactly once. -/
structure State.InOrder (s : State) : Prop where
  count : s.pixels.length = s.emitted
  positions : ∀ j p, s.pixels[j]? = some p → (p.x.toNat, p.y.toNat) = positionAt s.cfg j

/-- R125 and R148: every raw value answered is below 256 in RLE8 and below 16 in RLE4. -/
def State.rawInRange (s : State) : Prop :=
  ∀ p ∈ s.pixels, p.raw.toNat < match s.cfg.mode with
    | .rle8 => 256
    | .rle4 => 16

/-- No call has been answered `NONE` while pixels could still come: once a `NONE` stands in the record, decoding has ended or the
position stage is exhausted (R185). -/
def State.noneOnlyAtEnd (s : State) : Prop := .none ∈ s.resps → s.st = .ended ∨ s.row = s.cfg.height

/-! ## What one step does, in the words of the rules -/

/-- Configuration and window are as before, read byte by byte too (R20, R55). -/
structure State.SameWindow (s t : State) : Prop where
  cfg : t.cfg = s.cfg
  mem : t.mem = s.mem
  bytes : ∀ a, t.byteAt a = s.byteAt a

/-- `t` is `s` after `emit` of the 32-bit value `raw` as far as responses and counters go (R105, R180): the pixel
`(col, H − 1 − row, raw)` is answered, then `col` counts up and wraps into `row` when it reaches `W`. -/
structure State.EmitsTo (s : State) (raw : Word) (t : State) : Prop where
  response : t.resps = s.resps ++ [.pixel ⟨s.col, s.cfg.height - 1 - s.row, raw⟩]
  wrap : s.col.toNat + 1 = s.cfg.width.toNat → t.col = 0 ∧ t.row = s.row + 1
  noWrap : s.col.toNat + 1 ≠ s.cfg.width.toNat → t.col = s.col + 1 ∧ t.row = s.row

/-- `t` is `s` after `raise End(c)` (R201), with the cursor where the raising rule leaves it: END entered with cause `c`, the call
answered `NONE`, everything else frozen. -/
structure State.EndsTo (s : State) (c : Cause) (pos : Word) (t : State) : Prop where
  st : t.st = .ended
  cause : t.cause = c
  response : t.resps = s.resps ++ [.none]
  cursor : t.pos = pos
  col : t.col = s.col
  row : t.row = s.row
  remaining : t.remaining = s.remaining
  value : t.value = s.value
  parity : t.parity = s.parity
  padding : t.padding = s.padding
  window : s.SameWindow t

/-- The same state over another window of the same length. -/
def State.withMem (s : State) (m : Memory) : State := { s with mem := m }

/-- An outcome with its next state, if any, changed by `f`. -/
def onNext (f : State → State) : Outcome → Outcome
  | .next t => .next (f t)
  | .fault r => .fault r
  | .refused r => .refused r

/-- The raw values answered so far, in order. -/
def State.raws (s : State) : List Word := s.pixels.map Pixel.raw

/-- `k` steps of the machine, stopping at the first fault or refusal. -/
def runSteps : Nat → State → Outcome
  | 0, s => .next s
  | k + 1, s =>
    match step s with
    | .next t => runSteps k t
    | .fault r => .fault r
    | .refused r => .refused r

end Sys2Proof.Machine
end

