-- ==== Sys2Proof/Certificates/Slice0/Obligations.lean ====
section
/-! DEFINITION. The statements for the provers. Each docstring names the rules of spec/ it formalises; log <n> is
notes/assumptions/<n>.md. -/

open Sys2Proof Sys2Proof.Machine

/-! ## Reset, encoding, decoding -/

/-- R35, R230: for every configuration and window the host supplies, reset leaves every register at the value R35 gives it and latches the
inputs; and END is left by no step. The empty response record is the model's own field (log 2). -/
def Obligations.ResetLeavesSpecValues : Prop :=
  (∀ (c : Config) (m : Memory),
    let s := State.resetWith c m
    s.st = .starting ∧ s.pos = 0 ∧ s.col = 0 ∧ s.row = 0 ∧ s.cause = .none ∧ s.remaining = 0 ∧ s.value = 0 ∧ s.parity = false ∧
      s.padding = false ∧ s.cfg = c ∧ s.mem = m ∧ s.resps = []) ∧
  (∀ s : State, s.st = .ended → ∃ t, step s = .next t ∧ t.st = .ended)

/-- R72: the class of an opcode by the five conditions in priority order, the same in both modes. -/
def Obligations.DecodeFollowsPriority : Prop :=
  ∀ (m : Mode) (b0 b1 : Byte),
    let c := (decodeOpcode m b0 b1).opClass
    (b0 = 0 → b1 = 0 → c = .eol) ∧ (b0 = 0 → b1 = 1 → c = .eob) ∧ (b0 = 0 → b1 = 2 → c = .delta) ∧
      (b0 = 0 → 3 ≤ b1.toNat → c = .abs b1) ∧ (1 ≤ b0.toNat → c = .run b0 b1) ∧ (decodeOpcode m b0 b1).mode = m

/-- R71, R80: words written out from the encodings decode to the instructions they stand for, one for each row. -/
def Obligations.WrittenWordsDecode : Prop :=
  decode .rle8 [0x00, 0x00] = .ok (.rle8Eol, []) ∧ decode .rle8 [0x00, 0x01] = .ok (.rle8Eob, []) ∧
  decode .rle8 [0x00, 0x02] = .ok (.rle8Delta, []) ∧ decode .rle8 [0x00, 0x03, 0x0A] = .ok (.rle8Abs 3, [0x0A]) ∧
  decode .rle8 [0x02, 0x41] = .ok (.rle8Run 2 0x41, []) ∧ decode .rle4 [0x00, 0x00] = .ok (.rle4Eol, []) ∧
  decode .rle4 [0x00, 0x01] = .ok (.rle4Eob, []) ∧ decode .rle4 [0x00, 0x02] = .ok (.rle4Delta, []) ∧
  decode .rle4 [0x00, 0x05, 0x12] = .ok (.rle4Abs 5, [0x12]) ∧ decode .rle4 [0x05, 0xAB] = .ok (.rle4Run 5 0xAB, [])

/-- R70, R80: decoding the encoding of a well-formed instruction gives it back, whatever bytes follow. -/
def Obligations.DecodeOfEncode : Prop :=
  ∀ (i : Instr) (rest : List Byte), i.wellFormed = true → decode i.mode (encode i ++ rest) = .ok (i, rest)

/-- R72, R78: every two bytes decode, to a well-formed instruction of the mode, and encoding that instruction gives the two bytes back. -/
def Obligations.EncodeOfDecode : Prop :=
  ∀ (m : Mode) (b0 b1 : Byte) (rest : List Byte),
    ∃ i, decode m (b0 :: b1 :: rest) = .ok (i, rest) ∧ i.wellFormed = true ∧ i.mode = m ∧ encode i = [b0, b1]

/-- R80: a match/mask decoder with first-match order over the ten rows finds, for every opcode word, the row of the decoded instruction. -/
def Obligations.OpcodeMapFirstMatch : Prop :=
  ∀ (m : Mode) (b0 b1 : Byte),
    (firstMatch m (opWord b0 b1)).map OpcodeRow.mnemonic = some (decodeOpcode m b0 b1).mnemonic

/-- R54, R74, R75, R77: every record has an even length, and the RLE4 absolute run's literal bytes, pad and length by N mod 4. -/
def Obligations.RecordLengths : Prop :=
  (∀ i : Instr, recordLength i % 2 = 0) ∧
  (∀ n : Byte, recordLength (.rle8Abs n) = 2 + n.toNat + n.toNat % 2 ∧ (padding8 n = true ↔ n.toNat % 2 = 1)) ∧
  (∀ n : Byte,
    (n.toNat % 4 = 0 → padding4 n = false ∧ recordLength (.rle4Abs n) = 2 + n.toNat / 2) ∧
    (n.toNat % 4 = 1 → padding4 n = true ∧ recordLength (.rle4Abs n) = 2 + (n.toNat + 1) / 2 + 1) ∧
    (n.toNat % 4 = 2 → padding4 n = true ∧ recordLength (.rle4Abs n) = 2 + n.toNat / 2 + 1) ∧
    (n.toNat % 4 = 3 → padding4 n = false ∧ recordLength (.rle4Abs n) = 2 + (n.toNat + 1) / 2))

/-- R70, R74, R75, R81: an assembled absolute run decodes to its opcode, has its record's length, and its literals read back from the
window it is placed in. -/
def Obligations.AssembledLiteralsReadBack : Prop :=
  (∀ (before : List Byte) (ls : List Byte) (after : List Byte), 3 ≤ ls.length → ls.length ≤ 255 →
    let i := Instr.rle8Abs (BitVec.ofNat 8 ls.length)
    let bytes := (Stmt.abs8 ls).assemble
    bytes.length = recordLength i ∧ decode .rle8 (bytes ++ after) = .ok (i, padded ls ++ after) ∧
      ∀ j (h : j < ls.length),
        literal8 (Memory.ofBytes (before ++ bytes ++ after)) before.length j = ls[j].setWidth 32) ∧
  (∀ (before : List Byte) (ns : List Nibble) (after : List Byte), 3 ≤ ns.length → ns.length ≤ 255 →
    let i := Instr.rle4Abs (BitVec.ofNat 8 ns.length)
    let bytes := (Stmt.abs4 ns).assemble
    bytes.length = recordLength i ∧ decode .rle4 (bytes ++ after) = .ok (i, padded (packNibbles ns) ++ after) ∧
      ∀ j (h : j < ns.length),
        literal4 (Memory.ofBytes (before ++ bytes ++ after)) before.length j = ns[j].setWidth 32)

/-! ## The opcodes -/

/-- R120: `RLE8.RUN` with `L ≥ 1`, on every state. -/
def Obligations.Rle8RunResult : Prop :=
  ∀ (s : State) (l v : Byte), 1 ≤ l.toNat →
    ∃ t, exec (.rle8Run l v) s = .next t ∧ s.EmitsTo (v.setWidth 32) t ∧ t.remaining.toNat = l.toNat - 1 ∧ t.value = v ∧
      (t.parity = true ↔ l.toNat % 2 = 1) ∧ t.st = .running ∧ t.padding = s.padding ∧ t.pos = s.pos ∧ t.cause = s.cause ∧
      s.SameWindow t

/-- R122: `RLE8.ABS` with `N ≥ 3`: with a literal byte at the cursor, and without one. -/
def Obligations.Rle8AbsResult : Prop :=
  ∀ (s : State) (n : Byte), 3 ≤ n.toNat →
    (s.pos.toNat + 1 ≤ s.cfg.len.toNat →
      ∃ t, exec (.rle8Abs n) s = .next t ∧ s.EmitsTo ((s.mem.read s.pos.toNat).setWidth 32) t ∧
        t.pos.toNat = s.pos.toNat + 1 ∧ t.remaining.toNat = n.toNat - 1 ∧ (t.parity = true ↔ n.toNat % 2 = 1) ∧
        (t.padding = true ↔ n.toNat % 2 = 1) ∧ t.st = .absolute ∧ t.value = s.value ∧ t.cause = s.cause ∧ s.SameWindow t) ∧
    (s.cfg.len.toNat < s.pos.toNat + 1 →
      ∃ t, exec (.rle8Abs n) s = .next t ∧ s.EndsTo .truncated s.pos t)

/-- R141: `RLE4.RUN` with `L ≥ 1`, on every state: value 0 takes the high nibble. -/
def Obligations.Rle4RunResult : Prop :=
  ∀ (s : State) (l v : Byte), 1 ≤ l.toNat →
    ∃ t, exec (.rle4Run l v) s = .next t ∧ s.EmitsTo (BitVec.ofNat 32 (v.toNat / 16)) t ∧ t.remaining.toNat = l.toNat - 1 ∧
      t.value = v ∧ (t.parity = true ↔ l.toNat % 2 = 1) ∧ t.st = .running ∧ t.padding = s.padding ∧ t.pos = s.pos ∧
      t.cause = s.cause ∧ s.SameWindow t

/-- R143: `RLE4.ABS` with `N ≥ 3`: with a literal byte at the cursor, whose high nibble is emitted and which is not consumed, and
without one. -/
def Obligations.Rle4AbsResult : Prop :=
  ∀ (s : State) (n : Byte), 3 ≤ n.toNat →
    (s.pos.toNat + 1 ≤ s.cfg.len.toNat →
      ∃ t, exec (.rle4Abs n) s = .next t ∧ s.EmitsTo (BitVec.ofNat 32 ((s.mem.read s.pos.toNat).toNat / 16)) t ∧
        t.pos = s.pos ∧ t.remaining.toNat = n.toNat - 1 ∧ (t.parity = true ↔ n.toNat % 2 = 1) ∧
        (t.padding = true ↔ (n.toNat + 1) / 2 % 2 = 1) ∧ t.st = .absolute ∧ t.value = s.value ∧ t.cause = s.cause ∧
        s.SameWindow t) ∧
    (s.cfg.len.toNat < s.pos.toNat + 1 →
      ∃ t, exec (.rle4Abs n) s = .next t ∧ s.EndsTo .truncated s.pos t)

/-- R160: `EOL` in both modes: a no-op at row start, `End(EOL_MIDROW)` elsewhere. -/
def Obligations.EndOfLineResult : Prop :=
  ∀ (i : Instr) (s : State), i = .rle8Eol ∨ i = .rle4Eol →
    (s.col = 0 → exec i s = .next s) ∧
    (s.col ≠ 0 → ∃ t, exec i s = .next t ∧ s.EndsTo .eolMidrow s.pos t)

/-- R161: `EOB` in both modes ends decoding with cause EOB, on every state and whatever the window holds. -/
def Obligations.EndOfBitmapResult : Prop :=
  ∀ (i : Instr) (s : State), i = .rle8Eob ∨ i = .rle4Eob → ∃ t, exec i s = .next t ∧ s.EndsTo .eob s.pos t

/-- R162: `DELTA` in both modes ends decoding with cause DELTA, on every state and whatever the window holds. -/
def Obligations.DeltaResult : Prop :=
  ∀ (i : Instr) (s : State), i = .rle8Delta ∨ i = .rle4Delta → ∃ t, exec i s = .next t ∧ s.EndsTo .delta s.pos t

/-! ## Frames -/

/-- R20, R55, R200, R201: what no opcode changes: configuration, every byte of the window, the earlier responses, and `cause`
unless it ends decoding. R7, R100: one response at most is added to the model's own record (log 2). -/
def Obligations.ExecFrame : Prop :=
  ∀ (i : Instr) (s t : State), exec i s = .next t →
    s.SameWindow t ∧ (t.cause = s.cause ∨ t.st = .ended) ∧ (t.resps = s.resps ∨ ∃ r, t.resps = s.resps ++ [r])

/-- R160 to R162: the escapes of both modes change no register but `st` and `cause`. -/
def Obligations.EscapeFrame : Prop :=
  ∀ (i : Instr) (s t : State), i ∈ [Instr.rle8Eol, .rle8Eob, .rle8Delta, .rle4Eol, .rle4Eob, .rle4Delta] → exec i s = .next t →
    t.remaining = s.remaining ∧ t.value = s.value ∧ t.parity = s.parity ∧ t.padding = s.padding ∧ t.pos = s.pos ∧
      t.col = s.col ∧ t.row = s.row ∧ ∀ a, t.byteAt a = s.byteAt a

/-- R120, R141: the run opcodes of both modes write `remaining`, `value`, `parity`, `st`, the counters and the response, and leave
`padding`, the cursor, `cause` and the window. -/
def Obligations.RunFrame : Prop :=
  ∀ (i : Instr) (l v : Byte) (s t : State), i = .rle8Run l v ∨ i = .rle4Run l v → exec i s = .next t →
    t.padding = s.padding ∧ t.pos = s.pos ∧ t.cause = s.cause ∧ t.cfg = s.cfg ∧ ∀ a, t.byteAt a = s.byteAt a

/-- R122, R143: the absolute-run opcodes of both modes leave `value` and the window; where they end decoding they leave every register
but `st` and `cause`; where they do not, they leave `cause`, and RLE4 leaves the cursor. -/
def Obligations.AbsFrame : Prop :=
  ∀ (i : Instr) (n : Byte) (s t : State), i = .rle8Abs n ∨ i = .rle4Abs n → exec i s = .next t →
    t.value = s.value ∧ t.cfg = s.cfg ∧ (∀ a, t.byteAt a = s.byteAt a) ∧
      (t.st ≠ .ended → t.cause = s.cause ∧ (i = .rle4Abs n → t.pos = s.pos)) ∧
      (t.st = .ended → t.remaining = s.remaining ∧ t.parity = s.parity ∧ t.padding = s.padding ∧ t.pos = s.pos ∧
        t.col = s.col ∧ t.row = s.row)

/-! ## The micro-steps -/

/-- R102, R103: in STARTING, when the bytes at the cursor decode to `i`, a step is `exec i` with the cursor two bytes on; with fewer than
two bytes left, whatever a single byte holds, the step ends decoding with TRUNCATED and the cursor unchanged. -/
def Obligations.StepRunsDecodedInstruction : Prop :=
  ∀ s : State, s.st = .starting → s.row ≠ s.cfg.height →
    (∀ (b0 b1 : Byte) (rest rest' : List Byte) (i : Instr),
      s.byteAt s.pos.toNat = some b0 → s.byteAt (s.pos.toNat + 1) = some b1 →
      decode s.cfg.mode (b0 :: b1 :: rest) = .ok (i, rest') → step s = exec i { s with pos := s.pos + 2 }) ∧
    (s.cfg.len.toNat < s.pos.toNat + 2 → ∃ t, step s = .next t ∧ s.EndsTo .truncated s.pos t)

/-- The host's `withFetchWord` (log 7): from every state of an image with rows, the next step runs the instruction the table word
decodes to in the state's mode. -/
def Obligations.FetchWordIsRunNext : Prop :=
  ∀ (s : State) (nbits w : Nat) (i : Instr) (rest : List Byte), s.cfg.height ≠ 0 → s.mem.wf = true → nbits ≤ 8 * maxRecordLength →
    decode s.cfg.mode (tableRecordBytes nbits w) = .ok (i, rest) →
    step (s.withFetchWord nbits w) = exec i ((s.withFetchWord nbits w).advance 2)

/-- R121: an RLE8 run emission. -/
def Obligations.Rle8RunEmission : Prop :=
  ∀ s : State, s.st = .running → s.cfg.mode = .rle8 → 1 ≤ s.remaining.toNat → s.row ≠ s.cfg.height →
    ∃ t, step s = .next t ∧ s.EmitsTo (s.value.setWidth 32) t ∧ t.remaining.toNat = s.remaining.toNat - 1 ∧
      t.st = .running ∧ t.value = s.value ∧ t.parity = s.parity ∧ t.padding = s.padding ∧ t.pos = s.pos ∧ t.cause = s.cause ∧
      s.SameWindow t

/-- R140, R142: an RLE4 run emission takes the nibble `want_left` selects. -/
def Obligations.Rle4RunEmission : Prop :=
  ∀ s : State, s.st = .running → s.cfg.mode = .rle4 → 1 ≤ s.remaining.toNat → s.row ≠ s.cfg.height →
    ∃ t, step s = .next t ∧
      (((s.remaining.toNat - 1) % 2 = 1 ↔ s.parity = false) → s.EmitsTo (BitVec.ofNat 32 (s.value.toNat / 16)) t) ∧
      (((s.remaining.toNat - 1) % 2 = 1 ↔ s.parity = true) → s.EmitsTo (BitVec.ofNat 32 (s.value.toNat % 16)) t) ∧
      t.remaining.toNat = s.remaining.toNat - 1 ∧ t.st = .running ∧ t.value = s.value ∧ t.parity = s.parity ∧
      t.padding = s.padding ∧ t.pos = s.pos ∧ t.cause = s.cause ∧ s.SameWindow t

/-- R123: an RLE8 absolute emission, with a literal byte at the cursor and without one. -/
def Obligations.Rle8AbsEmission : Prop :=
  ∀ s : State, s.st = .absolute → s.cfg.mode = .rle8 → 1 ≤ s.remaining.toNat → s.row ≠ s.cfg.height →
    (s.pos.toNat + 1 ≤ s.cfg.len.toNat →
      ∃ t, step s = .next t ∧ s.EmitsTo ((s.mem.read s.pos.toNat).setWidth 32) t ∧ t.pos.toNat = s.pos.toNat + 1 ∧
        t.remaining.toNat = s.remaining.toNat - 1 ∧ t.st = .absolute ∧ t.value = s.value ∧ t.parity = s.parity ∧
        t.padding = s.padding ∧ t.cause = s.cause ∧ s.SameWindow t) ∧
    (s.cfg.len.toNat < s.pos.toNat + 1 → ∃ t, step s = .next t ∧ s.EndsTo .truncated s.pos t)

/-- R144: an RLE4 absolute emission: the high nibble of a new byte, consumed only if it is the last literal; the low nibble, with its
byte consumed; and the end of decoding where a new byte is missing. -/
def Obligations.Rle4AbsEmission : Prop :=
  ∀ s : State, s.st = .absolute → s.cfg.mode = .rle4 → 1 ≤ s.remaining.toNat → s.row ≠ s.cfg.height →
    (wantLeft s.remaining.toNat s.parity = true → s.pos.toNat + 1 ≤ s.cfg.len.toNat →
      ∃ t, step s = .next t ∧ s.EmitsTo (BitVec.ofNat 32 ((s.mem.read s.pos.toNat).toNat / 16)) t ∧
        t.pos.toNat = (if s.remaining.toNat = 1 then s.pos.toNat + 1 else s.pos.toNat) ∧
        t.remaining.toNat = s.remaining.toNat - 1 ∧ t.st = .absolute ∧ t.value = s.value ∧ t.parity = s.parity ∧
        t.padding = s.padding ∧ t.cause = s.cause ∧ s.SameWindow t) ∧
    (wantLeft s.remaining.toNat s.parity = true → s.cfg.len.toNat < s.pos.toNat + 1 →
      ∃ t, step s = .next t ∧ s.EndsTo .truncated s.pos t) ∧
    (wantLeft s.remaining.toNat s.parity = false → s.pos.toNat < s.cfg.len.toNat →
      ∃ t, step s = .next t ∧ s.EmitsTo (BitVec.ofNat 32 ((s.mem.read s.pos.toNat).toNat % 16)) t ∧
        t.pos.toNat = s.pos.toNat + 1 ∧ t.remaining.toNat = s.remaining.toNat - 1 ∧ t.st = .absolute ∧ t.value = s.value ∧
        t.parity = s.parity ∧ t.padding = s.padding ∧ t.cause = s.cause ∧ s.SameWindow t)

/-- R104: the run epilogue returns to STARTING and changes nothing else, in both modes. -/
def Obligations.RunEpilogue : Prop :=
  ∀ s : State, s.st = .running → s.remaining = 0 → s.row ≠ s.cfg.height → step s = .next { s with st := .starting }

/-- R76, R106: the absolute epilogue consumes the pad byte, if there is one to consume, and returns to STARTING; a missing pad byte ends
decoding with the cursor unchanged. -/
def Obligations.AbsoluteEpilogue : Prop :=
  ∀ s : State, s.st = .absolute → s.remaining = 0 → s.row ≠ s.cfg.height →
    (s.padding = false → step s = .next { s with st := .starting }) ∧
    (s.padding = true → s.pos.toNat + 1 ≤ s.cfg.len.toNat → step s = .next { s with st := .starting, pos := s.pos + 1 }) ∧
    (s.padding = true → s.cfg.len.toNat < s.pos.toNat + 1 → ∃ t, step s = .next t ∧ s.EndsTo .truncated s.pos t)

/-- R202: every way a step can end decoding, with its cause and the cursor it leaves; encoded runs and their emissions are not among
them, and what the step freezes is frozen (R201). -/
def Obligations.EveryEnd : Prop :=
  ∀ s t : State, s.Inv → s.st ≠ .ended → step s = .next t → t.st = .ended →
    s.EndsTo t.cause t.pos t ∧
    ((s.st = .starting ∧ s.cfg.len.toNat < s.pos.toNat + 2 ∧ t.cause = .truncated ∧ t.pos = s.pos) ∨
     (s.st = .starting ∧ s.byteAt s.pos.toNat = some 0 ∧ t.pos = s.pos + 2 ∧
       ((∃ n, s.byteAt (s.pos.toNat + 1) = some n ∧ 3 ≤ n.toNat ∧ t.cause = .truncated ∧ t.pos = s.cfg.len) ∨
        (s.byteAt (s.pos.toNat + 1) = some 1 ∧ t.cause = .eob) ∨
        (s.byteAt (s.pos.toNat + 1) = some 2 ∧ t.cause = .delta) ∨
        (s.byteAt (s.pos.toNat + 1) = some 0 ∧ s.col ≠ 0 ∧ t.cause = .eolMidrow))) ∨
     (s.st = .absolute ∧ (s.remaining ≠ 0 ∨ s.padding = true) ∧ t.cause = .truncated ∧ t.pos = s.pos ∧ t.pos = s.cfg.len))

/-! ## The selector and the status word -/

/-- R147, R140: with `k` values left of a run of `n`, the high nibble is taken exactly when the value's index `n − k` is even; so the first
value takes the high nibble. -/
def Obligations.SelectorLaw : Prop :=
  ∀ n k : Nat, 1 ≤ k → k ≤ n → (wantLeft k (odd n) = true ↔ (n - k) % 2 = 0)

/-- R21, R32, R200, R31: the codes of `st` and `cause`; the STATUS word holds them and `done` in their bits, and 0 in bits 7:6; and every
`dbg_*` output shows its register. -/
def Obligations.StatusWordFields : Prop :=
  (FsmState.starting.code = 0b00 ∧ FsmState.running.code = 0b01 ∧ FsmState.absolute.code = 0b10 ∧ FsmState.ended.code = 0b11) ∧
  (Cause.none.code = 0 ∧ Cause.eob.code = 1 ∧ Cause.truncated.code = 2 ∧ Cause.delta.code = 3 ∧ Cause.eolMidrow.code = 4) ∧
  ∀ s : State,
    (s.status.extractLsb' 0 2 = s.st.code ∧ s.status.extractLsb' 2 3 = s.cause.code ∧
      (s.status.getLsbD 5 = true ↔ s.row = s.cfg.height) ∧ s.status.extractLsb' 6 2 = 0) ∧
    (s.outputs.status = s.status ∧ s.outputs.dbgPos = s.pos ∧ s.outputs.dbgCol = s.col ∧ s.outputs.dbgRow = s.row ∧
      s.outputs.dbgRemaining = s.remaining ∧ s.outputs.dbgValue = s.value ∧
      (s.outputs.dbgParity = 1 ↔ s.parity = true) ∧ (s.outputs.dbgPadding = 1 ↔ s.padding = true))

/-! ## The whole machine -/

/-- R34 at reset, for every legal configuration and window; the model's own `State.reset` (log 3) among them. -/
def Obligations.ResetMeetsInvariant : Prop :=
  (∀ (c : Config) (m : Memory), c.Legal → m.wf = true → m.within c.len.toNat = true → (State.resetWith c m).Inv) ∧
  State.reset.Inv

/-- R34, R110: the ranges, the opcode alignment and the window's form are kept by every step, from every state that has them. -/
def Obligations.StepKeepsInvariant : Prop :=
  ∀ s t : State, s.Inv → step s = .next t → t.Inv

/-- R100, R51, R203: from every state within the ranges a step answers a next state: no fault, no refusal, no read outside the window. -/
def Obligations.StepIsTotal : Prop :=
  ∀ s : State, s.Inv → ∃ t, step s = .next t

/-- R110, R54: after any number of steps from any reset of a launched decoder, an opcode is fetched at an even offset. R34, R100: the
ranges hold and no step has stopped. -/
def Obligations.OpcodesAtEvenOffsets : Prop :=
  ∀ (c : Config) (m : Memory) (k : Nat), c.Legal → m.wf = true → m.within c.len.toNat = true →
    ∃ t, runSteps k (State.resetWith c m) = .next t ∧ t.Inv ∧ (t.st = .starting → t.pos.toNat % 2 = 0)

/-- R20, R50, R55, R58: no step changes the configuration or a byte of the window, from any state. -/
def Obligations.WindowNeverChanges : Prop :=
  ∀ s t : State, step s = .next t → s.SameWindow t

/-- R27, R79: the cursor only moves forward, by at most an opcode and a literal byte a step, and never past the window's end. -/
def Obligations.CursorMovesForward : Prop :=
  ∀ s t : State, s.Inv → step s = .next t →
    s.pos.toNat ≤ t.pos.toNat ∧ t.pos.toNat ≤ s.pos.toNat + 3 ∧ t.pos.toNat ≤ t.cfg.len.toNat

/-- R30, R201: `cause` reads NONE until decoding ends, is written by the step that enters END, and never again. -/
def Obligations.CauseWrittenOnce : Prop :=
  ∀ s t : State, s.Inv → step s = .next t →
    (s.st ≠ .ended → s.cause = .none) ∧ (t.cause ≠ s.cause → s.st ≠ .ended ∧ t.st = .ended) ∧
      (s.cause ≠ .none → t.cause = s.cause)

/-- R100, R105: a step adds at most one response; if it is a pixel, the emitted count grows by one, and otherwise the counters stand. -/
def Obligations.OneEmissionPerStep : Prop :=
  ∀ s t : State, s.Inv → step s = .next t →
    (t.resps = s.resps ∧ t.col = s.col ∧ t.row = s.row) ∨ (t.resps = s.resps ++ [.none] ∧ t.col = s.col ∧ t.row = s.row) ∨
      (∃ raw, s.EmitsTo raw t ∧ t.emitted = s.emitted + 1)

/-- R180, R186: the pixels answered are the first positions of the bottom-up order; every step keeps it so. -/
def Obligations.StepKeepsPixelOrder : Prop :=
  ∀ s t : State, s.Inv → s.InOrder → step s = .next t → t.InOrder

/-- R186: at most `W·H` pixels, each position at most once, in every state that keeps the order. -/
def Obligations.PixelCountLaw : Prop :=
  ∀ s : State, s.Inv → s.InOrder →
    s.pixels.length ≤ s.cfg.width.toNat * s.cfg.height.toNat ∧ (s.pixels.map fun p => (p.x, p.y)).Nodup

/-- R125, R148: raw values stay below 256 in RLE8 and below 16 in RLE4. -/
def Obligations.StepKeepsRawRange : Prop :=
  ∀ s t : State, s.rawInRange → step s = .next t → t.rawInRange

/-- R185: a call is answered `NONE` only when decoding has ended or the position stage is exhausted; every step keeps it so. -/
def Obligations.StepKeepsNoneOnlyAtEnd : Prop :=
  ∀ s t : State, s.noneOnlyAtEnd → step s = .next t → t.noneOnlyAtEnd

/-- R107, R183, R185, R235: a call made in END or when `done` holds answers `NONE`, runs no micro-step and changes no register. -/
def Obligations.CallAfterTheEnd : Prop :=
  ∀ s : State, s.st = .ended ∨ s.row = s.cfg.height →
    call s = .next { s with resps := s.resps ++ [.none] } ∧
      ({ s with resps := s.resps ++ [.none] } : State).outputs = s.outputs

/-- R108, R109: every call is answered exactly once within `2 + floor((LEN − pos)/2)` micro-steps, and keeps the invariant. -/
def Obligations.CallIsAnsweredWithinBound : Prop :=
  ∀ s : State, s.Inv →
    ∃ (k : Nat) (t : State) (r : Response), k ≤ 2 + (s.cfg.len.toNat - s.pos.toNat) / 2 ∧ runSteps k s = .next t ∧
      call s = .next t ∧ t.resps = s.resps ++ [r] ∧ t.Inv

/-- R185, R186: a run ends: from every good state, calls up to one more than the positions left reach a `NONE`, and then decoding has
ended or the image is complete. -/
def Obligations.RunEndsWithNone : Prop :=
  ∀ s : State, s.Inv →
    ∃ t, runCalls (s.cfg.width.toNat * s.cfg.height.toNat - s.emitted + 1) s = .next t ∧ t.runEnded = true ∧ t.Inv ∧
      (t.st = .ended ∨ t.row = t.cfg.height)

/-! ## Whole records -/

/-- R124, R74: from an RLE8 opcode, with pixels left beyond the record and its bytes in the window: a run takes `L + 1` steps, 2 bytes and
emits `V` `L` times; an absolute run takes `N + 1` steps, `2 + N + odd(N)` bytes and emits its N literals in stream order. -/
def Obligations.Rle8RecordConsumption : Prop :=
  ∀ s : State, s.Inv → s.st = .starting → s.cfg.mode = .rle8 →
    (∀ l v : Byte, s.byteAt s.pos.toNat = some l → s.byteAt (s.pos.toNat + 1) = some v → 1 ≤ l.toNat →
      s.emitted + l.toNat < s.cfg.width.toNat * s.cfg.height.toNat →
      ∃ t, runSteps (l.toNat + 1) s = .next t ∧ t.st = .starting ∧ t.pos.toNat = s.pos.toNat + 2 ∧
        t.raws = s.raws ++ List.replicate l.toNat (v.setWidth 32)) ∧
    (∀ n : Byte, s.byteAt s.pos.toNat = some 0 → s.byteAt (s.pos.toNat + 1) = some n → 3 ≤ n.toNat →
      s.pos.toNat + 2 + n.toNat + n.toNat % 2 ≤ s.cfg.len.toNat →
      s.emitted + n.toNat < s.cfg.width.toNat * s.cfg.height.toNat →
      ∃ t, runSteps (n.toNat + 1) s = .next t ∧ t.st = .starting ∧ t.pos.toNat = s.pos.toNat + 2 + n.toNat + n.toNat % 2 ∧
        t.raws = s.raws ++ (List.range n.toNat).map (literal8 s.mem s.pos.toNat))

/-- R145, R75, R146, R147: the same for RLE4: a run alternates the nibbles of `V`, high first; an absolute run takes
`2 + B + odd(B)` bytes with `B = ceil(N/2)` and emits its N nibbles, high first. -/
def Obligations.Rle4RecordConsumption : Prop :=
  ∀ s : State, s.Inv → s.st = .starting → s.cfg.mode = .rle4 →
    (∀ l v : Byte, s.byteAt s.pos.toNat = some l → s.byteAt (s.pos.toNat + 1) = some v → 1 ≤ l.toNat →
      s.emitted + l.toNat < s.cfg.width.toNat * s.cfg.height.toNat →
      ∃ t, runSteps (l.toNat + 1) s = .next t ∧ t.st = .starting ∧ t.pos.toNat = s.pos.toNat + 2 ∧
        t.raws = s.raws ++ (List.range l.toNat).map (runNibble v)) ∧
    (∀ n : Byte, s.byteAt s.pos.toNat = some 0 → s.byteAt (s.pos.toNat + 1) = some n → 3 ≤ n.toNat →
      s.pos.toNat + recordLength (.rle4Abs n) ≤ s.cfg.len.toNat →
      s.emitted + n.toNat < s.cfg.width.toNat * s.cfg.height.toNat →
      ∃ t, runSteps (n.toNat + 1) s = .next t ∧ t.st = .starting ∧
        t.pos.toNat = s.pos.toNat + 2 + (n.toNat + 1) / 2 + (n.toNat + 1) / 2 % 2 ∧
        t.raws = s.raws ++ (List.range n.toNat).map (literal4 s.mem s.pos.toNat))

/-- R120 to R123, R183: the first `j` values of an RLE8 record, for every `j` up to the end of the record and of the image: `j` steps emit
them, and `done` holds exactly when they reach the image's last pixel. So a record that fills or overruns the image is cut there. -/
def Obligations.Rle8RecordPrefix : Prop :=
  ∀ s : State, s.Inv → s.st = .starting → s.cfg.mode = .rle8 →
    (∀ (l v : Byte) (j : Nat), s.byteAt s.pos.toNat = some l → s.byteAt (s.pos.toNat + 1) = some v → 1 ≤ j → j ≤ l.toNat →
      s.emitted + j ≤ s.cfg.width.toNat * s.cfg.height.toNat →
      ∃ t, runSteps j s = .next t ∧ t.st = .running ∧ t.pos.toNat = s.pos.toNat + 2 ∧ t.remaining.toNat = l.toNat - j ∧
        (t.row = t.cfg.height ↔ s.emitted + j = s.cfg.width.toNat * s.cfg.height.toNat) ∧
        t.raws = s.raws ++ List.replicate j (v.setWidth 32)) ∧
    (∀ (n : Byte) (j : Nat), s.byteAt s.pos.toNat = some 0 → s.byteAt (s.pos.toNat + 1) = some n → 3 ≤ n.toNat → 1 ≤ j →
      j ≤ n.toNat → s.pos.toNat + 2 + j ≤ s.cfg.len.toNat → s.emitted + j ≤ s.cfg.width.toNat * s.cfg.height.toNat →
      ∃ t, runSteps j s = .next t ∧ t.st = .absolute ∧ t.pos.toNat = s.pos.toNat + 2 + j ∧ t.remaining.toNat = n.toNat - j ∧
        (t.row = t.cfg.height ↔ s.emitted + j = s.cfg.width.toNat * s.cfg.height.toNat) ∧
        t.raws = s.raws ++ (List.range j).map (literal8 s.mem s.pos.toNat))

/-- R141 to R144, R183: the same for RLE4. Of an absolute run the cursor stands on the byte whose low nibble is next, or past the last
byte once the run's last literal is out. -/
def Obligations.Rle4RecordPrefix : Prop :=
  ∀ s : State, s.Inv → s.st = .starting → s.cfg.mode = .rle4 →
    (∀ (l v : Byte) (j : Nat), s.byteAt s.pos.toNat = some l → s.byteAt (s.pos.toNat + 1) = some v → 1 ≤ j → j ≤ l.toNat →
      s.emitted + j ≤ s.cfg.width.toNat * s.cfg.height.toNat →
      ∃ t, runSteps j s = .next t ∧ t.st = .running ∧ t.pos.toNat = s.pos.toNat + 2 ∧ t.remaining.toNat = l.toNat - j ∧
        (t.row = t.cfg.height ↔ s.emitted + j = s.cfg.width.toNat * s.cfg.height.toNat) ∧
        t.raws = s.raws ++ (List.range j).map (runNibble v)) ∧
    (∀ (n : Byte) (j : Nat), s.byteAt s.pos.toNat = some 0 → s.byteAt (s.pos.toNat + 1) = some n → 3 ≤ n.toNat → 1 ≤ j →
      j ≤ n.toNat → s.pos.toNat + 2 + (j + 1) / 2 ≤ s.cfg.len.toNat →
      s.emitted + j ≤ s.cfg.width.toNat * s.cfg.height.toNat →
      ∃ t, runSteps j s = .next t ∧ t.st = .absolute ∧
        t.pos.toNat = s.pos.toNat + 2 + (if j = n.toNat then (j + 1) / 2 else j / 2) ∧ t.remaining.toNat = n.toNat - j ∧
        (t.row = t.cfg.height ↔ s.emitted + j = s.cfg.width.toNat * s.cfg.height.toNat) ∧
        t.raws = s.raws ++ (List.range j).map (literal4 s.mem s.pos.toNat))

/-! ## What a step depends on -/

/-- R31, R51, R102, R122, R123, R143, R144, R183: the offsets a step puts on `mem_addr`, in order, by the state it starts in, each inside
the window, with the window's byte on `mem_data`. The epilogue of an absolute run uses the port for no pad byte (log 17). -/
def Obligations.PortReadsAreTheRules : Prop :=
  ∀ s : State,
    (∀ r ∈ s.portReads, r.memAddr.toNat < s.cfg.len.toNat ∧ s.byteAt r.memAddr.toNat = some r.memData) ∧
    (s.st = .ended ∨ s.row = s.cfg.height ∨ s.st = .running ∨ (s.st = .absolute ∧ s.remaining = 0) → s.memAddrs = []) ∧
    (s.st = .starting → s.row ≠ s.cfg.height →
      (s.cfg.len.toNat < s.pos.toNat + 2 → s.memAddrs = []) ∧
      (∀ b0 b1 : Byte, s.byteAt s.pos.toNat = some b0 → s.byteAt (s.pos.toNat + 1) = some b1 →
        (b0 = 0 → 3 ≤ b1.toNat → s.pos.toNat + 3 ≤ s.cfg.len.toNat →
          s.memAddrs = [s.pos.toNat, s.pos.toNat + 1, s.pos.toNat + 2]) ∧
        (b0 ≠ 0 ∨ b1.toNat < 3 ∨ s.cfg.len.toNat < s.pos.toNat + 3 → s.memAddrs = [s.pos.toNat, s.pos.toNat + 1]))) ∧
    (s.st = .absolute → s.remaining ≠ 0 → s.row ≠ s.cfg.height →
      s.memAddrs = if s.pos.toNat + 1 ≤ s.cfg.len.toNat then [s.pos.toNat] else [])

/-- R31, R51, R60: a step depends on the window only through the bytes at the offsets it puts on `mem_addr`: two windows that agree there
give the same offsets and outcomes that differ in the window only. -/
def Obligations.StepDependsOnItsReads : Prop :=
  ∀ (s : State) (m : Memory), (∀ a ∈ s.memAddrs, m.read a = s.mem.read a) →
    (s.withMem m).memAddrs = s.memAddrs ∧ step (s.withMem m) = onNext (·.withMem m) (step s)

/-- R120, R141, R160, R161, R162, R121, R142, R104, R106, R107: run opcodes, escapes, run emissions and both epilogues depend on no byte
of the window, so a pad byte's value has no effect (R76) and nothing after `EOB` or `DELTA` is looked at. That the absolute epilogue
consumes the pad byte without a read is the model's reading of R106 (log 17). -/
def Obligations.StepsThatReadNoByte : Prop :=
  ∀ (s : State) (m : Memory),
    (∀ i : Instr, (∀ n, i ≠ .rle8Abs n ∧ i ≠ .rle4Abs n) → exec i (s.withMem m) = onNext (·.withMem m) (exec i s)) ∧
    (s.st = .running ∨ s.st = .ended ∨ (s.st = .absolute ∧ s.remaining = 0) →
      step (s.withMem m) = onNext (·.withMem m) (step s))

/-- R51, R60: a step depends on no byte of the window but the three from the cursor on (an opcode and literal 0), whatever else the window
holds, before the cursor or after. -/
def Obligations.StepReadsAtCursorOnly : Prop :=
  ∀ (s : State) (m : Memory),
    (∀ a, s.pos.toNat ≤ a → a < s.pos.toNat + 3 → m.read a = s.mem.read a) →
    step (s.withMem m) = onNext (·.withMem m) (step s)

/-- R146, R144: the last literal of an RLE4 absolute run with N odd is a high nibble: the low nibble of its byte has no effect. -/
def Obligations.UnusedLowNibble : Prop :=
  ∀ (s : State) (m : Memory), s.st = .absolute → s.cfg.mode = .rle4 → s.remaining = 1 → s.parity = true →
    (m.read s.pos.toNat).toNat / 16 = (s.mem.read s.pos.toNat).toNat / 16 →
    step (s.withMem m) = onNext (·.withMem m) (step s)

/-! ## Launch -/

/-- R181: the sign of the stored height, the row-order flag, does not change the decoder that is built. It is about `launch`, the model's
reading of what the host does before reset (log 21). -/
def Obligations.RowOrderHasNoEffect : Prop :=
  ∀ h : Header, launch { h with storedHeight := -h.storedHeight } = launch h

/-- R232, R50, R52: a decoder that is built is at its reset values, meets the invariant, and its window is the slice of the buffer. It is
about `launch`, the model's reading of what the host does before reset (log 21). -/
def Obligations.LaunchMeetsPremises : Prop :=
  ∀ (h : Header) (s : State), launch h = some s →
    s.Inv ∧ s.InOrder ∧ s = State.resetWith s.cfg s.mem ∧ s.cfg.width = h.width ∧
      s.cfg.height.toNat = h.storedHeight.toInt.natAbs ∧ s.cfg.len = h.dataLength ∧
      (∀ a, a < h.dataLength.toNat → s.byteAt a = h.buffer[h.dataOffset + a]?)
end

