-- ==== Sys2Proof/Laws/Decode.lean ====
section
/-! SUPPORT. The five classes of an opcode, one small lemma each. -/

namespace Sys2Proof

theorem classify_run {b0 : Byte} (h : b0 ≠ 0) (b1 : Byte) : classify b0 b1 = .run b0 b1 := by
  simp only [classify, h, false_and, if_false]

theorem classify_abs {b1 : Byte} (h0 : b1 ≠ 0) (h1 : b1 ≠ 1) (h2 : b1 ≠ 2) : classify 0 b1 = .abs b1 := by
  simp only [classify, h0, h1, h2, and_false, if_false, if_true]

@[simp] theorem classify_eol : classify 0 0 = .eol := rfl
@[simp] theorem classify_eob : classify 0 1 = .eob := rfl
@[simp] theorem classify_delta : classify 0 2 = .delta := rfl

/-- What the two bytes of each class are. -/
theorem classify_cases (b0 b1 : Byte) :
    (b0 = 0 ∧ b1 = 0 ∧ classify b0 b1 = .eol) ∨ (b0 = 0 ∧ b1 = 1 ∧ classify b0 b1 = .eob) ∨
      (b0 = 0 ∧ b1 = 2 ∧ classify b0 b1 = .delta) ∨ (b0 = 0 ∧ 3 ≤ b1.toNat ∧ classify b0 b1 = .abs b1) ∨
      (1 ≤ b0.toNat ∧ classify b0 b1 = .run b0 b1) := by
  by_cases h0 : b0 = 0
  · subst h0
    by_cases e0 : b1 = 0
    · exact .inl ⟨rfl, e0, by rw [e0]; rfl⟩
    · by_cases e1 : b1 = 1
      · exact .inr (.inl ⟨rfl, e1, by rw [e1]; rfl⟩)
      · by_cases e2 : b1 = 2
        · exact .inr (.inr (.inl ⟨rfl, e2, by rw [e2]; rfl⟩))
        · refine .inr (.inr (.inr (.inl ⟨rfl, ?_, classify_abs e0 e1 e2⟩)))
          rw [← BitVec.toNat_inj] at e0 e1 e2
          simp only [BitVec.ofNat_eq_ofNat, BitVec.toNat_ofNat] at e0 e1 e2
          omega
  · refine .inr (.inr (.inr (.inr ⟨?_, classify_run h0 b1⟩)))
    rw [← BitVec.toNat_inj] at h0
    simp only [BitVec.ofNat_eq_ofNat, BitVec.toNat_ofNat] at h0
    omega

@[simp] theorem instrOf_mode (m : Mode) (c : OpClass) : (instrOf m c).mode = m := by
  cases m <;> cases c <;> rfl

@[simp] theorem instrOf_opClass (m : Mode) (c : OpClass) : (instrOf m c).opClass = c := by
  cases m <;> cases c <;> rfl

/-- An instruction is the row of its class in its mode. -/
theorem instrOf_eta (i : Instr) : instrOf i.mode i.opClass = i := by
  cases i <;> rfl

theorem tableRecordBytes_length {nbits w : Nat} (h : nbits ≤ 8 * maxRecordLength) :
    (tableRecordBytes nbits w).length = maxRecordLength := by
  simp only [tableRecordBytes, tableWordBytes, List.length_append, List.length_map, List.length_range, List.length_replicate]
  omega

end Sys2Proof
end

