-- ==== Sys2Proof/Laws/Operands.lean ====
section
/-! SUPPORT. The operand forms and the flags as numbers. -/

namespace Sys2Proof.Machine

/-! ## Nibbles and raw values -/

theorem highNibble_toNat (b : Byte) : (highNibble b).toNat = b.toNat / 16 := by
  have := b.isLt
  simp only [highNibble, BitVec.extractLsb'_toNat, Nat.shiftRight_eq_div_pow]
  omega

theorem lowNibble_toNat (b : Byte) : (lowNibble b).toNat = b.toNat % 16 := by
  simp only [lowNibble, BitVec.extractLsb'_toNat, Nat.shiftRight_zero]

@[simp] theorem rawOfByte_toNat (b : Byte) : (rawOfByte b).toNat = b.toNat := by
  have := b.isLt
  simp only [rawOfByte, BitVec.toNat_setWidth]
  omega

@[simp] theorem rawOfNibble_toNat (n : Nibble) : (rawOfNibble n).toNat = n.toNat := by
  have := n.isLt
  simp only [rawOfNibble, BitVec.toNat_setWidth]
  omega

theorem rawOfNibble_high (b : Byte) : rawOfNibble (highNibble b) = BitVec.ofNat 32 (b.toNat / 16) := by
  have := b.isLt
  apply BitVec.eq_of_toNat_eq
  rw [rawOfNibble_toNat, highNibble_toNat, BitVec.toNat_ofNat]
  exact (Nat.mod_eq_of_lt (by omega)).symm

theorem rawOfNibble_low (b : Byte) : rawOfNibble (lowNibble b) = BitVec.ofNat 32 (b.toNat % 16) := by
  apply BitVec.eq_of_toNat_eq
  rw [rawOfNibble_toNat, lowNibble_toNat, BitVec.toNat_ofNat]
  exact (Nat.mod_eq_of_lt (by omega)).symm

@[simp] theorem selectNibble_true (b : Byte) : selectNibble true b = highNibble b := rfl
@[simp] theorem selectNibble_false (b : Byte) : selectNibble false b = lowNibble b := rfl

/-! ## Flags -/

@[simp] theorem odd_eq_true (k : Nat) : odd k = true ↔ k % 2 = 1 := by simp [odd]

@[simp] theorem odd_eq_false (k : Nat) : odd k = false ↔ k % 2 = 0 := by simp [odd]

theorem oddCount_eq (k : Nat) : oddCount k = k % 2 := by
  have : k % 2 = 0 ∨ k % 2 = 1 := by omega
  rcases this with h | h <;> simp [oddCount, odd, h]

theorem wantLeft_eq_true (k : Nat) (p : Bool) : wantLeft k p = true ↔ ((k - 1) % 2 = 1 ↔ p = false) := by
  cases p <;> simp [wantLeft]

theorem wantLeft_eq_false (k : Nat) (p : Bool) : wantLeft k p = false ↔ ((k - 1) % 2 = 1 ↔ p = true) := by
  cases p <;> simp [wantLeft]

/-- Counting a value down flips the selector. -/
theorem wantLeft_pred {k : Nat} (h : 2 ≤ k) (p : Bool) : wantLeft (k - 1) p = !wantLeft k p := by
  have : odd (k - 1 - 1) = !odd (k - 1) := by
    rw [Bool.eq_iff_iff]
    simp only [odd_eq_true, Bool.not_eq_true', odd_eq_false]
    omega
  simp only [wantLeft, this]
  cases odd (k - 1) <;> cases p <;> rfl

/-- Lowering an 8-bit count that is not 0. -/
theorem byte_pred_toNat {b : Byte} (h : 1 ≤ b.toNat) : (b - 1).toNat = b.toNat - 1 := by
  have hb := b.isLt
  rw [BitVec.toNat_sub]
  simp only [BitVec.ofNat_eq_ofNat, BitVec.toNat_ofNat]
  omega

theorem byte_ne_zero {b : Byte} : b ≠ 0 ↔ 1 ≤ b.toNat := by
  rw [Ne, ← BitVec.toNat_inj]
  simp only [BitVec.ofNat_eq_ofNat, BitVec.toNat_ofNat]
  omega

end Sys2Proof.Machine
end

