-- ==== Sys2Proof/Laws/Memory.lean ====
section
/-! SUPPORT. The laws of the data window: read after write, and that every memory operation keeps the canonical form. -/

namespace Sys2Proof.Machine

@[simp] theorem Memory.read_nil (k : Nat) : Memory.read [] k = 0 := rfl

theorem Memory.wfFrom_mono {lo lo' : Nat} (h : lo' ≤ lo) : ∀ {m : Memory}, Memory.wfFrom lo m = true → Memory.wfFrom lo' m = true
  | [], _ => rfl
  | (a, b) :: m, hm => by
    simp only [Memory.wfFrom, Bool.and_eq_true, decide_eq_true_eq] at hm ⊢
    exact ⟨⟨by omega, hm.1.2⟩, hm.2⟩

/-- Below the first offset a canonical window reads as 0x00. -/
theorem Memory.read_of_lt {k : Nat} : ∀ {lo : Nat} {m : Memory}, Memory.wfFrom lo m = true → k < lo → m.read k = 0
  | _, [], _, _ => rfl
  | lo, (a, b) :: m, hm, hk => by
    simp only [Memory.wfFrom, Bool.and_eq_true, decide_eq_true_eq] at hm
    have : a ≠ k := by omega
    simp only [Memory.read, this, if_false]
    exact Memory.read_of_lt hm.2 (by omega)

/-- Read after write at the same offset. -/
theorem Memory.read_write_same (k : Nat) (v : Byte) :
    ∀ {lo : Nat} {m : Memory}, Memory.wfFrom lo m = true → (m.write k v).read k = v
  | _, [], _ => by
    simp only [Memory.write]
    split
    · rename_i hv
      exact hv.symm
    · simp [Memory.read]
  | lo, (a, b) :: m, hm => by
    simp only [Memory.wfFrom, Bool.and_eq_true, decide_eq_true_eq] at hm
    simp only [Memory.write]
    split
    · rename_i hlt
      split
      · rename_i hv
        have : a ≠ k := by omega
        simp only [Memory.read, this, if_false]
        exact (Memory.read_of_lt hm.2 (by omega)).trans hv.symm
      · simp [Memory.read]
    · split
      · rename_i heq
        split
        · rename_i hv
          exact (Memory.read_of_lt hm.2 (by omega)).trans hv.symm
        · simp [Memory.read]
      · have : a ≠ k := by omega
        simp only [Memory.read, this, if_false]
        exact Memory.read_write_same k v hm.2

/-- Read after write at another offset. -/
theorem Memory.read_write_other {k j : Nat} (v : Byte) (h : j ≠ k) : ∀ (m : Memory), (m.write k v).read j = m.read j
  | [] => by
    simp only [Memory.write]
    split <;> simp [Memory.read, h.symm]
  | (a, b) :: m => by
    have ih := Memory.read_write_other v h m
    simp only [Memory.write]
    split
    · split <;> simp [Memory.read, h.symm]
    · split
      · rename_i heq
        subst heq
        split <;> simp [Memory.read, h.symm]
      · simp only [Memory.read, ih]

theorem Memory.wfFrom_write {k : Nat} (v : Byte) :
    ∀ {lo : Nat} {m : Memory}, Memory.wfFrom lo m = true → lo ≤ k → Memory.wfFrom lo (m.write k v) = true
  | lo, [], _, hk => by
    simp only [Memory.write]
    split
    · rfl
    · rename_i hv
      simp only [Memory.wfFrom, Bool.and_true, Bool.and_eq_true, decide_eq_true_eq]
      exact ⟨hk, hv⟩
  | lo, (a, b) :: m, hm, hk => by
    have hm' := hm
    simp only [Memory.wfFrom, Bool.and_eq_true, decide_eq_true_eq] at hm
    simp only [Memory.write]
    split
    · split
      · exact hm'
      · rename_i hlt hv
        simp only [Memory.wfFrom, Bool.and_eq_true, decide_eq_true_eq]
        exact ⟨⟨hk, hv⟩, ⟨by omega, hm.1.2⟩, hm.2⟩
    · split
      · rename_i heq
        subst heq
        split
        · exact Memory.wfFrom_mono (by omega) hm.2
        · rename_i hv
          simp only [Memory.wfFrom, Bool.and_eq_true, decide_eq_true_eq]
          exact ⟨⟨hk, hv⟩, hm.2⟩
      · simp only [Memory.wfFrom, Bool.and_eq_true, decide_eq_true_eq]
        exact ⟨hm.1, Memory.wfFrom_write v hm.2 (by omega)⟩

/-- A write keeps the canonical form. -/
theorem Memory.wf_write {m : Memory} (h : m.wf = true) (k : Nat) (v : Byte) : (m.write k v).wf = true :=
  Memory.wfFrom_write v h (Nat.zero_le k)

/-- A load keeps the canonical form. -/
theorem Memory.wf_load : ∀ {m : Memory}, m.wf = true → ∀ (a : Nat) (bs : List Byte), (m.load a bs).wf = true
  | _, h, _, [] => h
  | _, h, a, b :: bs => Memory.wf_load (Memory.wf_write h a b) (a + 1) bs

/-- A written offset is an old one or the new one. -/
theorem Memory.mem_write {k : Nat} {v : Byte} {c : Host.Cell} : ∀ {m : Memory}, c ∈ m.write k v → c ∈ m ∨ c.1 = k
  | [], h => by
    simp only [Memory.write] at h
    split at h
    · exact .inl h
    · exact .inr (by rw [List.mem_singleton.mp h])
  | (a, b) :: m, h => by
    simp only [Memory.write] at h
    have put : c ∈ (k, v) :: m → c ∈ (a, b) :: m ∨ c.1 = k := fun h =>
      (List.mem_cons.mp h).elim (fun e => .inr (by rw [e])) fun h => .inl (List.mem_cons_of_mem _ h)
    split at h
    · split at h
      · exact .inl h
      · exact (List.mem_cons.mp h).elim (fun e => .inr (by rw [e])) .inl
    · split at h
      · split at h
        · exact .inl (List.mem_cons_of_mem _ h)
        · exact put h
      · rcases List.mem_cons.mp h with e | h
        · exact .inl (e ▸ List.mem_cons_self)
        · exact (Memory.mem_write h).imp_left (List.mem_cons_of_mem _)

theorem Memory.within_write {m : Memory} {len k : Nat} (v : Byte) (h : m.within len = true) (hk : k < len) :
    (m.write k v).within len = true := by
  simp only [Memory.within, List.all_eq_true, decide_eq_true_eq] at h ⊢
  intro c hc
  rcases Memory.mem_write hc with hm | rfl
  · exact h c hm
  · exact hk

theorem Memory.within_load {len : Nat} : ∀ {m : Memory} (a : Nat) (bs : List Byte), m.within len = true → a + bs.length ≤ len →
    (m.load a bs).within len = true
  | _, _, [], h, _ => h
  | _, a, b :: bs, h, hk => by
    simp only [List.length_cons] at hk
    exact Memory.within_load (a + 1) bs (Memory.within_write b h (by omega)) (by omega)

theorem Memory.within_mono {m : Memory} {len len' : Nat} (h : m.within len = true) (hl : len ≤ len') : m.within len' = true := by
  simp only [Memory.within, List.all_eq_true, decide_eq_true_eq] at h ⊢
  intro c hc
  exact Nat.lt_of_lt_of_le (h c hc) hl

/-- A load leaves the offsets before it alone. -/
theorem Memory.read_load_before {j : Nat} : ∀ (m : Memory) (a : Nat) (bs : List Byte), j < a → (m.load a bs).read j = m.read j
  | _, _, [], _ => rfl
  | m, a, b :: bs, hj => by
    rw [Memory.load, Memory.read_load_before _ (a + 1) bs (by omega), Memory.read_write_other b (by omega)]

/-- A load leaves the offsets after it alone. -/
theorem Memory.read_load_after {j : Nat} : ∀ (m : Memory) (a : Nat) (bs : List Byte), a + bs.length ≤ j →
    (m.load a bs).read j = m.read j
  | _, _, [], _ => rfl
  | m, a, b :: bs, hj => by
    simp only [List.length_cons] at hj
    rw [Memory.load, Memory.read_load_after _ (a + 1) bs (by omega), Memory.read_write_other b (by omega)]

/-- A load puts its `k`-th byte `k` offsets on. -/
theorem Memory.read_load {k : Nat} : ∀ {m : Memory} (a : Nat) (bs : List Byte) (h : k < bs.length), m.wf = true →
    (m.load a bs).read (a + k) = bs[k]
  | m, a, b :: bs, h, hm => by
    rw [Memory.load]
    cases k with
    | zero =>
      rw [Memory.read_load_before _ _ _ (by omega), Nat.add_zero]
      exact Memory.read_write_same a b hm
    | succ k =>
      have := Memory.read_load (k := k) (a + 1) bs (by simpa using h) (Memory.wf_write hm a b)
      rw [show a + (k + 1) = a + 1 + k by omega, this, List.getElem_cons_succ]

theorem Memory.wfFrom_ofBytesFrom : ∀ (a : Nat) (bs : List Byte), Memory.wfFrom a (Memory.ofBytesFrom a bs) = true
  | _, [] => rfl
  | a, b :: bs => by
    have ih := Memory.wfFrom_ofBytesFrom (a + 1) bs
    simp only [Memory.ofBytesFrom]
    split
    · exact Memory.wfFrom_mono (by omega) ih
    · rename_i hb
      simp only [Memory.wfFrom, Bool.and_eq_true, decide_eq_true_eq]
      exact ⟨⟨Nat.le_refl a, hb⟩, ih⟩

/-- A window built from bytes is canonical. -/
theorem Memory.wf_ofBytes (bs : List Byte) : (Memory.ofBytes bs).wf = true := Memory.wfFrom_ofBytesFrom 0 bs

theorem Memory.within_ofBytesFrom {len : Nat} : ∀ (a : Nat) (bs : List Byte), a + bs.length ≤ len →
    (Memory.ofBytesFrom a bs).within len = true
  | _, [], _ => rfl
  | a, b :: bs, h => by
    simp only [List.length_cons] at h
    have ih := Memory.within_ofBytesFrom (len := len) (a + 1) bs (by omega)
    simp only [Memory.ofBytesFrom]
    split
    · exact ih
    · simp only [Memory.within, List.all_cons, Bool.and_eq_true, decide_eq_true_eq] at ih ⊢
      exact ⟨by omega, ih⟩

/-- A window built from bytes lies within their number. -/
theorem Memory.within_ofBytes (bs : List Byte) : (Memory.ofBytes bs).within bs.length = true :=
  Memory.within_ofBytesFrom 0 bs (by omega)

theorem Memory.read_ofBytesFrom {k : Nat} : ∀ (a : Nat) (bs : List Byte),
    (Memory.ofBytesFrom a bs).read (a + k) = bs.getD k 0
  | _, [] => by simp [Memory.ofBytesFrom]
  | a, b :: bs => by
    have hwf := Memory.wfFrom_ofBytesFrom (a + 1) bs
    cases k with
    | zero =>
      simp only [Memory.ofBytesFrom, Nat.add_zero, List.getD_cons_zero]
      split
      · rename_i hb
        exact (Memory.read_of_lt hwf (by omega)).trans hb.symm
      · simp [Memory.read]
    | succ k =>
      have ih := Memory.read_ofBytesFrom (k := k) (a + 1) bs
      rw [show a + 1 + k = a + (k + 1) by omega] at ih
      simp only [Memory.ofBytesFrom, List.getD_cons_succ]
      split
      · exact ih
      · have : a ≠ a + (k + 1) := by omega
        simpa only [Memory.read, this, if_false] using ih

/-- A window built from bytes reads back each of them. -/
theorem Memory.read_ofBytes (bs : List Byte) (k : Nat) : (Memory.ofBytes bs).read k = bs.getD k 0 := by
  have := Memory.read_ofBytesFrom (k := k) 0 bs
  simpa [Memory.ofBytes] using this

/-- The canonical form is unique: two canonical windows that read alike everywhere are equal. -/
theorem Memory.eq_of_read_eq : ∀ {lo : Nat} {m m' : Memory}, Memory.wfFrom lo m = true → Memory.wfFrom lo m' = true →
    (∀ k, m.read k = m'.read k) → m = m'
  | _, [], [], _, _, _ => rfl
  | _, [], (a, b) :: m', _, h', h => by
    simp only [Memory.wfFrom, Bool.and_eq_true, decide_eq_true_eq] at h'
    have := h a
    simp only [Memory.read, if_true] at this
    exact absurd this.symm h'.1.2
  | _, (a, b) :: m, [], hm, _, h => by
    simp only [Memory.wfFrom, Bool.and_eq_true, decide_eq_true_eq] at hm
    have := h a
    simp only [Memory.read, if_true] at this
    exact absurd this hm.1.2
  | lo, (a, b) :: m, (a', b') :: m', hm, hm', h => by
    simp only [Memory.wfFrom, Bool.and_eq_true, decide_eq_true_eq] at hm hm'
    have hle : ∀ {x y : Nat} {c : Byte} {n n' : Memory}, (c ≠ 0) → x < y → Memory.wfFrom (y + 1) n' = true → ∀ d,
        Memory.read ((x, c) :: n) x ≠ Memory.read ((y, d) :: n') x := by
      intro x y c n n' hc hxy hn' d
      have : y ≠ x := by omega
      simp only [Memory.read, if_true, this, if_false]
      rw [Memory.read_of_lt hn' (by omega)]
      exact hc
    have haa : a = a' := by
      rcases Nat.lt_trichotomy a a' with hlt | heq | hgt
      · exact absurd (h a) (hle hm.1.2 hlt hm'.2 b')
      · exact heq
      · exact absurd (h a').symm (hle hm'.1.2 hgt hm.2 b)
    subst haa
    have hbb : b = b' := by simpa [Memory.read] using h a
    subst hbb
    have : m = m' := Memory.eq_of_read_eq hm.2 hm'.2 fun k => by
      by_cases hk : a = k
      · subst hk
        rw [Memory.read_of_lt hm.2 (by omega), Memory.read_of_lt hm'.2 (by omega)]
      · simpa [Memory.read, hk] using h k
    rw [this]

end Sys2Proof.Machine
end

