-- ==== Sys2Proof/Laws/State.lean ====
section
/-! SUPPORT. One lemma per field for each named update of the state, so that no proof unfolds a record update. -/

namespace Sys2Proof.Machine

/-! ## `advance` -/
@[simp] theorem State.advance_cfg (s : State) (n : Nat) : (s.advance n).cfg = s.cfg := rfl
@[simp] theorem State.advance_mem (s : State) (n : Nat) : (s.advance n).mem = s.mem := rfl
@[simp] theorem State.advance_st (s : State) (n : Nat) : (s.advance n).st = s.st := rfl
@[simp] theorem State.advance_remaining (s : State) (n : Nat) : (s.advance n).remaining = s.remaining := rfl
@[simp] theorem State.advance_value (s : State) (n : Nat) : (s.advance n).value = s.value := rfl
@[simp] theorem State.advance_parity (s : State) (n : Nat) : (s.advance n).parity = s.parity := rfl
@[simp] theorem State.advance_padding (s : State) (n : Nat) : (s.advance n).padding = s.padding := rfl
@[simp] theorem State.advance_col (s : State) (n : Nat) : (s.advance n).col = s.col := rfl
@[simp] theorem State.advance_row (s : State) (n : Nat) : (s.advance n).row = s.row := rfl
@[simp] theorem State.advance_cause (s : State) (n : Nat) : (s.advance n).cause = s.cause := rfl
@[simp] theorem State.advance_resps (s : State) (n : Nat) : (s.advance n).resps = s.resps := rfl
@[simp] theorem State.advance_pos (s : State) (n : Nat) : (s.advance n).pos = s.pos + BitVec.ofNat 32 n := rfl

/-! ## `respond` -/
@[simp] theorem State.respond_cfg (s : State) (r : Response) : (s.respond r).cfg = s.cfg := rfl
@[simp] theorem State.respond_mem (s : State) (r : Response) : (s.respond r).mem = s.mem := rfl
@[simp] theorem State.respond_st (s : State) (r : Response) : (s.respond r).st = s.st := rfl
@[simp] theorem State.respond_remaining (s : State) (r : Response) : (s.respond r).remaining = s.remaining := rfl
@[simp] theorem State.respond_value (s : State) (r : Response) : (s.respond r).value = s.value := rfl
@[simp] theorem State.respond_parity (s : State) (r : Response) : (s.respond r).parity = s.parity := rfl
@[simp] theorem State.respond_padding (s : State) (r : Response) : (s.respond r).padding = s.padding := rfl
@[simp] theorem State.respond_pos (s : State) (r : Response) : (s.respond r).pos = s.pos := rfl
@[simp] theorem State.respond_col (s : State) (r : Response) : (s.respond r).col = s.col := rfl
@[simp] theorem State.respond_row (s : State) (r : Response) : (s.respond r).row = s.row := rfl
@[simp] theorem State.respond_cause (s : State) (r : Response) : (s.respond r).cause = s.cause := rfl
@[simp] theorem State.respond_resps (s : State) (r : Response) : (s.respond r).resps = s.resps ++ [r] := rfl

/-! ## `emit` -/
@[simp] theorem State.emit_cfg (s : State) (raw : Word) : (s.emit raw).cfg = s.cfg := rfl
@[simp] theorem State.emit_mem (s : State) (raw : Word) : (s.emit raw).mem = s.mem := rfl
@[simp] theorem State.emit_st (s : State) (raw : Word) : (s.emit raw).st = s.st := rfl
@[simp] theorem State.emit_remaining (s : State) (raw : Word) : (s.emit raw).remaining = s.remaining := rfl
@[simp] theorem State.emit_value (s : State) (raw : Word) : (s.emit raw).value = s.value := rfl
@[simp] theorem State.emit_parity (s : State) (raw : Word) : (s.emit raw).parity = s.parity := rfl
@[simp] theorem State.emit_padding (s : State) (raw : Word) : (s.emit raw).padding = s.padding := rfl
@[simp] theorem State.emit_pos (s : State) (raw : Word) : (s.emit raw).pos = s.pos := rfl
@[simp] theorem State.emit_cause (s : State) (raw : Word) : (s.emit raw).cause = s.cause := rfl
@[simp] theorem State.emit_col (s : State) (raw : Word) : (s.emit raw).col = s.nextCol := rfl
@[simp] theorem State.emit_row (s : State) (raw : Word) : (s.emit raw).row = s.nextRow := rfl
@[simp] theorem State.emit_resps (s : State) (raw : Word) : (s.emit raw).resps = s.resps ++ [.pixel (s.pixelHere raw)] := rfl

/-! ## `raiseEnd` -/
@[simp] theorem State.raiseEnd_cfg (s : State) (c : Cause) : (s.raiseEnd c).cfg = s.cfg := rfl
@[simp] theorem State.raiseEnd_mem (s : State) (c : Cause) : (s.raiseEnd c).mem = s.mem := rfl
@[simp] theorem State.raiseEnd_remaining (s : State) (c : Cause) : (s.raiseEnd c).remaining = s.remaining := rfl
@[simp] theorem State.raiseEnd_value (s : State) (c : Cause) : (s.raiseEnd c).value = s.value := rfl
@[simp] theorem State.raiseEnd_parity (s : State) (c : Cause) : (s.raiseEnd c).parity = s.parity := rfl
@[simp] theorem State.raiseEnd_padding (s : State) (c : Cause) : (s.raiseEnd c).padding = s.padding := rfl
@[simp] theorem State.raiseEnd_pos (s : State) (c : Cause) : (s.raiseEnd c).pos = s.pos := rfl
@[simp] theorem State.raiseEnd_col (s : State) (c : Cause) : (s.raiseEnd c).col = s.col := rfl
@[simp] theorem State.raiseEnd_row (s : State) (c : Cause) : (s.raiseEnd c).row = s.row := rfl
@[simp] theorem State.raiseEnd_st (s : State) (c : Cause) : (s.raiseEnd c).st = .ended := rfl
@[simp] theorem State.raiseEnd_cause (s : State) (c : Cause) : (s.raiseEnd c).cause = c := rfl
@[simp] theorem State.raiseEnd_resps (s : State) (c : Cause) : (s.raiseEnd c).resps = s.resps ++ [.none] := rfl

/-! ## `resetWith` -/
@[simp] theorem State.resetWith_cfg (c : Config) (m : Memory) : (State.resetWith c m).cfg = c := rfl
@[simp] theorem State.resetWith_mem (c : Config) (m : Memory) : (State.resetWith c m).mem = m := rfl
@[simp] theorem State.resetWith_st (c : Config) (m : Memory) : (State.resetWith c m).st = .starting := rfl
@[simp] theorem State.resetWith_remaining (c : Config) (m : Memory) : (State.resetWith c m).remaining = 0 := rfl
@[simp] theorem State.resetWith_value (c : Config) (m : Memory) : (State.resetWith c m).value = 0 := rfl
@[simp] theorem State.resetWith_parity (c : Config) (m : Memory) : (State.resetWith c m).parity = false := rfl
@[simp] theorem State.resetWith_padding (c : Config) (m : Memory) : (State.resetWith c m).padding = false := rfl
@[simp] theorem State.resetWith_pos (c : Config) (m : Memory) : (State.resetWith c m).pos = 0 := rfl
@[simp] theorem State.resetWith_col (c : Config) (m : Memory) : (State.resetWith c m).col = 0 := rfl
@[simp] theorem State.resetWith_row (c : Config) (m : Memory) : (State.resetWith c m).row = 0 := rfl
@[simp] theorem State.resetWith_cause (c : Config) (m : Memory) : (State.resetWith c m).cause = .none := rfl
@[simp] theorem State.resetWith_resps (c : Config) (m : Memory) : (State.resetWith c m).resps = [] := rfl

/-! ## What the reads and tests depend on -/

theorem State.byteAt_congr {s t : State} (hc : t.cfg = s.cfg) (hm : t.mem = s.mem) (a : Nat) : t.byteAt a = s.byteAt a := by
  simp [State.byteAt, hc, hm]

@[simp] theorem State.advance_byteAt (s : State) (n a : Nat) : (s.advance n).byteAt a = s.byteAt a := rfl
@[simp] theorem State.emit_byteAt (s : State) (raw : Word) (a : Nat) : (s.emit raw).byteAt a = s.byteAt a := rfl
@[simp] theorem State.raiseEnd_byteAt (s : State) (c : Cause) (a : Nat) : (s.raiseEnd c).byteAt a = s.byteAt a := rfl
@[simp] theorem State.respond_byteAt (s : State) (r : Response) (a : Nat) : (s.respond r).byteAt a = s.byteAt a := rfl

@[simp] theorem State.avail_eq_true (s : State) (n : Nat) :
    s.avail n = true ↔ s.pos.toNat + n ≤ s.cfg.len.toNat := by simp [State.avail]

@[simp] theorem State.avail_eq_false (s : State) (n : Nat) :
    s.avail n = false ↔ s.cfg.len.toNat < s.pos.toNat + n := by simp [State.avail]

@[simp] theorem State.done_eq_true (s : State) : s.done = true ↔ s.row = s.cfg.height := by simp [State.done]

@[simp] theorem State.done_eq_false (s : State) : s.done = false ↔ s.row ≠ s.cfg.height := by simp [State.done]

end Sys2Proof.Machine
end

