-- ==== Sys2Proof/Laws/Ops.lean ====
section
/-! SUPPORT. What the shared operations do: reads, the cursor, the emission, the ends, and the placing of a record. -/

namespace Sys2Proof.Machine

/-! ## Reads and the cursor -/

theorem State.byteAt_of_lt {s : State} {a : Nat} (h : a < s.cfg.len.toNat) : s.byteAt a = some (s.mem.read a) := by
  simp [State.byteAt, h]

theorem State.byteAt_eq_some {s : State} {a : Nat} {b : Byte} :
    s.byteAt a = some b ↔ a < s.cfg.len.toNat ∧ s.mem.read a = b := by
  simp [State.byteAt]

theorem State.cursorByte_of_avail {s : State} (h : s.pos.toNat + 1 ≤ s.cfg.len.toNat) :
    s.cursorByte = some (s.mem.read s.pos.toNat) := State.byteAt_of_lt h

/-- Advancing inside a 32-bit range is exact. -/
theorem State.advance_pos_toNat {s : State} {n : Nat} (h : s.pos.toNat + n < 2 ^ 32) :
    (s.advance n).pos.toNat = s.pos.toNat + n := by
  rw [State.advance_pos, BitVec.toNat_add, BitVec.toNat_ofNat, Nat.add_mod_mod]
  exact Nat.mod_eq_of_lt h

@[simp] theorem State.advance_zero (s : State) : s.advance 0 = s := by
  cases s
  simp [State.advance]

/-- A length in the window is below 2^32. -/
theorem State.len_lt (s : State) : s.cfg.len.toNat < 2 ^ 32 := s.cfg.len.isLt

/-! ## Same window -/

theorem State.SameWindow.of_eq {s t : State} (hc : t.cfg = s.cfg) (hm : t.mem = s.mem) : s.SameWindow t :=
  ⟨hc, hm, State.byteAt_congr hc hm⟩

theorem State.SameWindow.refl (s : State) : s.SameWindow s := .of_eq rfl rfl

/-! ## Emission -/

theorem State.atRowEnd_eq_true {s : State} : s.atRowEnd = true ↔ s.col.toNat + 1 = s.cfg.width.toNat := by
  simp [State.atRowEnd]

/-- `emit` does what R105 says; what is written beside responses and counters does not matter. -/
theorem State.EmitsTo.of_eq {s t : State} {raw : Word} (hr : t.resps = (s.emit raw).resps) (hc : t.col = (s.emit raw).col)
    (hw : t.row = (s.emit raw).row) : s.EmitsTo raw t where
  response := hr
  wrap h := by
    have : s.atRowEnd = true := State.atRowEnd_eq_true.mpr h
    simp [hc, hw, State.nextCol, State.nextRow, this]
  noWrap h := by
    have : s.atRowEnd = false := by simpa [State.atRowEnd] using h
    simp [hc, hw, State.nextCol, State.nextRow, this]

/-- Where the cursor stands does not matter to an emission. -/
theorem State.EmitsTo.of_advance {s t : State} {raw : Word} {n : Nat} (h : (s.advance n).EmitsTo raw t) : s.EmitsTo raw t :=
  ⟨h.response, h.wrap, h.noWrap⟩

/-- What an emission before the image is complete does to the counters, in numbers. -/
theorem State.EmitsTo.counters {s t : State} {raw : Word} (h : s.EmitsTo raw t) (hcol : s.col.toNat < s.cfg.width.toNat)
    (hrow : s.row.toNat < s.cfg.height.toNat) :
    (s.col.toNat + 1 = s.cfg.width.toNat ∧ t.col.toNat = 0 ∧ t.row.toNat = s.row.toNat + 1) ∨
      (s.col.toNat + 1 < s.cfg.width.toNat ∧ t.col.toNat = s.col.toNat + 1 ∧ t.row.toNat = s.row.toNat) := by
  have hw := s.cfg.width.isLt
  have hh := s.cfg.height.isLt
  by_cases he : s.col.toNat + 1 = s.cfg.width.toNat
  · obtain ⟨h1, h2⟩ := h.wrap he
    refine .inl ⟨he, by rw [h1]; rfl, ?_⟩
    rw [h2, BitVec.toNat_add]
    exact Nat.mod_eq_of_lt (by simp only [BitVec.ofNat_eq_ofNat, BitVec.toNat_ofNat]; omega)
  · obtain ⟨h1, h2⟩ := h.noWrap he
    refine .inr ⟨by omega, ?_, by rw [h2]⟩
    rw [h1, BitVec.toNat_add]
    exact Nat.mod_eq_of_lt (by simp only [BitVec.ofNat_eq_ofNat, BitVec.toNat_ofNat]; omega)

/-- An emission before the image is complete counts one pixel. -/
theorem State.EmitsTo.emitted {s t : State} {raw : Word} (h : s.EmitsTo raw t) (hcfg : t.cfg = s.cfg)
    (hcol : s.col.toNat < s.cfg.width.toNat) (hrow : s.row.toNat < s.cfg.height.toNat) : t.emitted = s.emitted + 1 := by
  rcases h.counters hcol hrow with ⟨he, h1, h2⟩ | ⟨he, h1, h2⟩
  · simp only [State.emitted, h1, h2, hcfg, Nat.add_mul, Nat.one_mul]
    omega
  · simp only [State.emitted, h1, h2, hcfg]
    omega

/-! ## Pixels of a response record -/

theorem State.pixels_of_resps {s t : State} (h : t.resps = s.resps) : t.pixels = s.pixels := by
  simp [State.pixels, h]

theorem State.pixels_of_none {s t : State} (h : t.resps = s.resps ++ [.none]) : t.pixels = s.pixels := by
  simp [State.pixels, h, List.filterMap_append]

theorem State.pixels_of_pixel {s t : State} {p : Pixel} (h : t.resps = s.resps ++ [.pixel p]) : t.pixels = s.pixels ++ [p] := by
  simp [State.pixels, h, List.filterMap_append]

theorem State.raws_of_pixel {s t : State} {p : Pixel} (h : t.resps = s.resps ++ [.pixel p]) : t.raws = s.raws ++ [p.raw] := by
  simp [State.raws, State.pixels_of_pixel h]

theorem State.raws_of_resps {s t : State} (h : t.resps = s.resps) : t.raws = s.raws := by
  simp [State.raws, State.pixels_of_resps h]

/-! ## Ending -/

/-- `raise End(c)` does what R201 says. -/
theorem State.endsTo_raiseEnd (s : State) (c : Cause) : s.EndsTo c s.pos (s.raiseEnd c) :=
  ⟨rfl, rfl, rfl, rfl, rfl, rfl, rfl, rfl, rfl, rfl, .of_eq rfl rfl⟩

/-! ## Placing a record -/

@[simp] theorem State.placeRecord_st (s : State) (bs : List Byte) : (s.placeRecord bs).st = .starting := rfl
@[simp] theorem State.placeRecord_mode (s : State) (bs : List Byte) : (s.placeRecord bs).cfg.mode = s.cfg.mode := rfl
@[simp] theorem State.placeRecord_height (s : State) (bs : List Byte) : (s.placeRecord bs).cfg.height = s.cfg.height := rfl

theorem State.placeAt_add_lt {s : State} {n : Nat} (h : n < 2 ^ 32) : s.placeAt n + n < 2 ^ 32 := by
  simp only [State.placeAt]
  split <;> omega

theorem State.placeRecord_pos_toNat {s : State} {bs : List Byte} (h : bs.length < 2 ^ 32) :
    (s.placeRecord bs).pos.toNat = s.placeAt bs.length := by
  have := State.placeAt_add_lt (s := s) h
  simp only [State.placeRecord, BitVec.toNat_ofNat]
  exact Nat.mod_eq_of_lt (by omega)

theorem State.placeRecord_len_toNat {s : State} {bs : List Byte} (h : bs.length < 2 ^ 32) :
    (s.placeRecord bs).cfg.len.toNat = max s.cfg.len.toNat (s.placeAt bs.length + bs.length) := by
  have := State.placeAt_add_lt (s := s) h
  have := s.len_lt
  simp only [State.placeRecord, BitVec.toNat_ofNat]
  exact Nat.mod_eq_of_lt (by omega)

theorem State.placeRecord_row_ne {s : State} (bs : List Byte) (h : s.cfg.height ≠ 0) :
    (s.placeRecord bs).row ≠ (s.placeRecord bs).cfg.height := by
  simp only [State.placeRecord]
  split
  · exact fun e => h e.symm
  · assumption

/-- The placed bytes are the ones at the cursor. -/
theorem State.placeRecord_byteAt {s : State} {bs : List Byte} {k : Nat} (hw : s.mem.wf = true) (h : bs.length < 2 ^ 32)
    (hk : k < bs.length) : (s.placeRecord bs).byteAt ((s.placeRecord bs).pos.toNat + k) = some bs[k] := by
  rw [State.placeRecord_pos_toNat h, State.byteAt_eq_some, State.placeRecord_len_toNat h]
  exact ⟨by omega, Memory.read_load _ _ hk hw⟩

end Sys2Proof.Machine
end

