-- ==== Sys2Proof/Laws/Exec.lean ====
section
/-! SUPPORT. What the parts shared by several meanings answer, once each. -/

namespace Sys2Proof.Machine

theorem endOfLine_at_start {s : State} (h : s.col = 0) : endOfLine s = .next s := by simp only [endOfLine, h, if_true]

theorem endOfLine_midrow {s : State} (h : s.col ≠ 0) : endOfLine s = .next (s.raiseEnd .eolMidrow) := by
  simp only [endOfLine, h, if_false]

theorem rle8Literal_avail {s : State} (h : s.pos.toNat + 1 ≤ s.cfg.len.toNat) (k : State → State) :
    rle8Literal s k = .next (k ((s.emit (rawOfByte (s.mem.read s.pos.toNat))).advance 1)) := by
  simp only [rle8Literal, (State.avail_eq_true s 1).mpr h, if_true, State.cursorByte_of_avail h]

theorem rle8Literal_empty {s : State} (h : s.cfg.len.toNat < s.pos.toNat + 1) (k : State → State) :
    rle8Literal s k = .next (s.raiseEnd .truncated) := by
  simp [rle8Literal, (State.avail_eq_false s 1).mpr h]

theorem rle4HighLiteral_avail {s : State} (h : s.pos.toNat + 1 ≤ s.cfg.len.toNat) (k : State → State) :
    rle4HighLiteral s k = .next (k (s.emit (rawOfNibble (highNibble (s.mem.read s.pos.toNat))))) := by
  simp only [rle4HighLiteral, (State.avail_eq_true s 1).mpr h, if_true, State.cursorByte_of_avail h]

theorem rle4HighLiteral_empty {s : State} (h : s.cfg.len.toNat < s.pos.toNat + 1) (k : State → State) :
    rle4HighLiteral s k = .next (s.raiseEnd .truncated) := by
  simp [rle4HighLiteral, (State.avail_eq_false s 1).mpr h]

theorem rle4LowLiteral_avail {s : State} (h : s.pos.toNat < s.cfg.len.toNat) :
    rle4LowLiteral s = .next { (s.emit (rawOfNibble (lowNibble (s.mem.read s.pos.toNat)))).advance 1 with
      remaining := s.remaining - 1 } := by
  simp only [rle4LowLiteral, State.cursorByte_of_avail h]

theorem rle4LowLiteral_outside {s : State} (h : ¬ s.pos.toNat < s.cfg.len.toNat) :
    rle4LowLiteral s = .fault (.readOutsideWindow s.pos.toNat) := by
  have : s.cursorByte = none := by simp [State.cursorByte, State.byteAt, h]
  simp only [rle4LowLiteral, this]

/-! ## One equation per opcode with operands -/

theorem exec_rle8Run (s : State) (l v : Byte) :
    exec (.rle8Run l v) s =
      .next { s.emit (rawOfByte v) with remaining := l - 1, value := v, parity := parityOf l, st := .running } := rfl

theorem exec_rle4Run (s : State) (l v : Byte) :
    exec (.rle4Run l v) s =
      .next { s.emit (rawOfNibble (highNibble v)) with remaining := l - 1, value := v, parity := parityOf l, st := .running } :=
  rfl

theorem exec_rle8Abs_avail {s : State} (h : s.pos.toNat + 1 ≤ s.cfg.len.toNat) (n : Byte) :
    exec (.rle8Abs n) s = .next { (s.emit (rawOfByte (s.mem.read s.pos.toNat))).advance 1 with
      remaining := n - 1, parity := parityOf n, padding := padding8 n, st := .absolute } := by
  simp only [exec, execRle8Abs]
  exact rle8Literal_avail h _

theorem exec_rle8Abs_empty {s : State} (h : s.cfg.len.toNat < s.pos.toNat + 1) (n : Byte) :
    exec (.rle8Abs n) s = .next (s.raiseEnd .truncated) := by
  simp only [exec, execRle8Abs]
  exact rle8Literal_empty h _

theorem exec_rle4Abs_avail {s : State} (h : s.pos.toNat + 1 ≤ s.cfg.len.toNat) (n : Byte) :
    exec (.rle4Abs n) s = .next { s.emit (rawOfNibble (highNibble (s.mem.read s.pos.toNat))) with
      remaining := n - 1, parity := parityOf n, padding := padding4 n, st := .absolute } := by
  simp only [exec, execRle4Abs]
  exact rle4HighLiteral_avail h _

theorem exec_rle4Abs_empty {s : State} (h : s.cfg.len.toNat < s.pos.toNat + 1) (n : Byte) :
    exec (.rle4Abs n) s = .next (s.raiseEnd .truncated) := by
  simp only [exec, execRle4Abs]
  exact rle4HighLiteral_empty h _

end Sys2Proof.Machine
end

