-- ==== Sys2Proof/Laws/Step.lean ====
section
/-! SUPPORT. What one step can do, said once: the step by state, and the inversion `step_effect`, from which the invariants follow
by cases. -/

namespace Sys2Proof.Machine

/-! ## The step by state -/

/-- A call made after the end (R107, R183). -/
theorem step_after_end {s : State} (h : s.st = .ended ∨ s.row = s.cfg.height) : step s = .next (s.respond .none) := by
  have : s.done = true ∨ s.st = .ended := h.symm.imp_left (State.done_eq_true s).mpr
  simp only [step, callStep, this, if_true]

/-- Before the end a step is a micro-step (R108). -/
theorem step_eq_microStep {s : State} (he : s.st ≠ .ended) (hd : s.row ≠ s.cfg.height) : step s = microStep s := by
  have : ¬ (s.done = true ∨ s.st = .ended) := by simp [hd, he]
  simp only [step, callStep, this, if_false]

theorem step_starting {s : State} (hst : s.st = .starting) (hd : s.row ≠ s.cfg.height) : step s = opcodeFetch s := by
  rw [step_eq_microStep (by simp [hst]) hd]
  simp only [microStep, hst]

theorem step_running {s : State} (hst : s.st = .running) (hd : s.row ≠ s.cfg.height) :
    step s = if s.remaining = 0 then runEpilogue s else runEmission s := by
  rw [step_eq_microStep (by simp [hst]) hd]
  simp only [microStep, hst]

theorem step_absolute {s : State} (hst : s.st = .absolute) (hd : s.row ≠ s.cfg.height) :
    step s = if s.remaining = 0 then absEpilogue s else absEmission s := by
  rw [step_eq_microStep (by simp [hst]) hd]
  simp only [microStep, hst]

/-! ## The opcode fetch -/

theorem opcodeFetch_avail {s : State} (h : s.pos.toNat + 2 ≤ s.cfg.len.toNat) :
    opcodeFetch s =
      exec (decodeOpcode s.cfg.mode (s.mem.read s.pos.toNat) (s.mem.read (s.pos.toNat + 1))) (s.advance 2) := by
  simp only [opcodeFetch, (State.avail_eq_true s 2).mpr h, if_true, State.byteAt_of_lt (show s.pos.toNat < s.cfg.len.toNat by omega),
    State.byteAt_of_lt (show s.pos.toNat + 1 < s.cfg.len.toNat by omega)]

theorem opcodeFetch_short {s : State} (h : s.cfg.len.toNat < s.pos.toNat + 2) :
    opcodeFetch s = .next (s.raiseEnd .truncated) := by
  simp [opcodeFetch, (State.avail_eq_false s 2).mpr h]

/-! ## The emission of a run -/

/-- The raw value of the next run emission, by mode (R121, R142). -/
def State.runRaw (s : State) : Word :=
  match s.cfg.mode with
  | .rle8 => rawOfByte s.value
  | .rle4 => rawOfNibble (selectNibble s.wantsLeft s.value)

theorem runEmission_eq (s : State) : runEmission s = .next { s.emit s.runRaw with remaining := s.remaining - 1 } := by
  cases hm : s.cfg.mode <;> simp only [runEmission, hm, State.runRaw, rle8RunEmission, rle4RunEmission]

/-! ## The inversion -/

/-- Everything a step that answers a next state can have done. -/
inductive StepEffect (s : State) : State → Prop
  /-- A call after the end (R107, R183). -/
  | afterEnd : s.st = .ended ∨ s.row = s.cfg.height → StepEffect s (s.respond .none)
  /-- Fewer than two bytes at an opcode (R102). -/
  | fetchShort : s.row ≠ s.cfg.height → s.st = .starting → s.cfg.len.toNat < s.pos.toNat + 2 →
      StepEffect s (s.raiseEnd .truncated)
  /-- A legal end of line (R160). -/
  | eolSkip : s.row ≠ s.cfg.height → s.st = .starting → s.pos.toNat + 2 ≤ s.cfg.len.toNat →
      s.mem.read s.pos.toNat = 0 → s.mem.read (s.pos.toNat + 1) = 0 → s.col = 0 → StepEffect s (s.advance 2)
  /-- An end of line in mid-row (R160). -/
  | eolEnd : s.row ≠ s.cfg.height → s.st = .starting → s.pos.toNat + 2 ≤ s.cfg.len.toNat →
      s.mem.read s.pos.toNat = 0 → s.mem.read (s.pos.toNat + 1) = 0 → s.col ≠ 0 →
      StepEffect s ((s.advance 2).raiseEnd .eolMidrow)
  /-- End of bitmap (R161). -/
  | eobEnd : s.row ≠ s.cfg.height → s.st = .starting → s.pos.toNat + 2 ≤ s.cfg.len.toNat →
      s.mem.read s.pos.toNat = 0 → s.mem.read (s.pos.toNat + 1) = 1 → StepEffect s ((s.advance 2).raiseEnd .eob)
  /-- Delta (R162). -/
  | deltaEnd : s.row ≠ s.cfg.height → s.st = .starting → s.pos.toNat + 2 ≤ s.cfg.len.toNat →
      s.mem.read s.pos.toNat = 0 → s.mem.read (s.pos.toNat + 1) = 2 → StepEffect s ((s.advance 2).raiseEnd .delta)
  /-- An absolute run without a literal byte (R122, R143). -/
  | absShort : s.row ≠ s.cfg.height → s.st = .starting → s.pos.toNat + 2 = s.cfg.len.toNat →
      s.mem.read s.pos.toNat = 0 → 3 ≤ (s.mem.read (s.pos.toNat + 1)).toNat →
      StepEffect s ((s.advance 2).raiseEnd .truncated)
  /-- An RLE8 absolute run with literal 0 (R122). -/
  | abs8 (n : Byte) : s.row ≠ s.cfg.height → s.st = .starting → s.cfg.mode = .rle8 → s.pos.toNat + 3 ≤ s.cfg.len.toNat →
      s.mem.read s.pos.toNat = 0 → s.mem.read (s.pos.toNat + 1) = n → 3 ≤ n.toNat →
      StepEffect s { ((s.advance 2).emit (rawOfByte (s.mem.read (s.pos.toNat + 2)))).advance 1 with
        remaining := n - 1, parity := parityOf n, padding := padding8 n, st := .absolute }
  /-- An RLE4 absolute run with literal 0 (R143). -/
  | abs4 (n : Byte) : s.row ≠ s.cfg.height → s.st = .starting → s.cfg.mode = .rle4 → s.pos.toNat + 3 ≤ s.cfg.len.toNat →
      s.mem.read s.pos.toNat = 0 → s.mem.read (s.pos.toNat + 1) = n → 3 ≤ n.toNat →
      StepEffect s { (s.advance 2).emit (rawOfNibble (highNibble (s.mem.read (s.pos.toNat + 2)))) with
        remaining := n - 1, parity := parityOf n, padding := padding4 n, st := .absolute }
  /-- An RLE8 encoded run (R120). -/
  | run8 (l v : Byte) : s.row ≠ s.cfg.height → s.st = .starting → s.cfg.mode = .rle8 → s.pos.toNat + 2 ≤ s.cfg.len.toNat →
      s.mem.read s.pos.toNat = l → s.mem.read (s.pos.toNat + 1) = v → 1 ≤ l.toNat →
      StepEffect s { (s.advance 2).emit (rawOfByte v) with
        remaining := l - 1, value := v, parity := parityOf l, st := .running }
  /-- An RLE4 encoded run (R141). -/
  | run4 (l v : Byte) : s.row ≠ s.cfg.height → s.st = .starting → s.cfg.mode = .rle4 → s.pos.toNat + 2 ≤ s.cfg.len.toNat →
      s.mem.read s.pos.toNat = l → s.mem.read (s.pos.toNat + 1) = v → 1 ≤ l.toNat →
      StepEffect s { (s.advance 2).emit (rawOfNibble (highNibble v)) with
        remaining := l - 1, value := v, parity := parityOf l, st := .running }
  /-- The run epilogue (R104). -/
  | runEpilogue : s.row ≠ s.cfg.height → s.st = .running → s.remaining = 0 → StepEffect s { s with st := .starting }
  /-- A run emission (R121, R142). -/
  | runEmission : s.row ≠ s.cfg.height → s.st = .running → s.remaining ≠ 0 →
      StepEffect s { s.emit s.runRaw with remaining := s.remaining - 1 }
  /-- The absolute epilogue without a pad byte (R106). -/
  | absEpilogue : s.row ≠ s.cfg.height → s.st = .absolute → s.remaining = 0 → s.padding = false →
      StepEffect s { s with st := .starting }
  /-- The absolute epilogue with its pad byte (R106). -/
  | absPad : s.row ≠ s.cfg.height → s.st = .absolute → s.remaining = 0 → s.padding = true →
      s.pos.toNat + 1 ≤ s.cfg.len.toNat → StepEffect s { s.advance 1 with st := .starting }
  /-- A missing pad byte (R106). -/
  | padShort : s.row ≠ s.cfg.height → s.st = .absolute → s.remaining = 0 → s.padding = true →
      s.cfg.len.toNat < s.pos.toNat + 1 → StepEffect s (s.raiseEnd .truncated)
  /-- A missing literal byte (R123, R144). -/
  | literalShort : s.row ≠ s.cfg.height → s.st = .absolute → s.remaining ≠ 0 → (s.cfg.mode = .rle4 → s.wantsLeft = true) →
      s.cfg.len.toNat < s.pos.toNat + 1 → StepEffect s (s.raiseEnd .truncated)
  /-- An RLE8 literal (R123). -/
  | literal8 : s.row ≠ s.cfg.height → s.st = .absolute → s.remaining ≠ 0 → s.cfg.mode = .rle8 →
      s.pos.toNat + 1 ≤ s.cfg.len.toNat →
      StepEffect s { (s.emit (rawOfByte (s.mem.read s.pos.toNat))).advance 1 with remaining := s.remaining - 1 }
  /-- An RLE4 literal in a high nibble that is not the last literal (R144). -/
  | literalHigh : s.row ≠ s.cfg.height → s.st = .absolute → s.remaining ≠ 0 → s.remaining ≠ 1 → s.cfg.mode = .rle4 →
      s.wantsLeft = true → s.pos.toNat + 1 ≤ s.cfg.len.toNat →
      StepEffect s { s.emit (rawOfNibble (highNibble (s.mem.read s.pos.toNat))) with remaining := s.remaining - 1 }
  /-- The last RLE4 literal in a high nibble (R144). -/
  | literalLastHigh : s.row ≠ s.cfg.height → s.st = .absolute → s.remaining = 1 → s.cfg.mode = .rle4 →
      s.wantsLeft = true → s.pos.toNat + 1 ≤ s.cfg.len.toNat →
      StepEffect s { (s.emit (rawOfNibble (highNibble (s.mem.read s.pos.toNat)))).advance 1 with remaining := s.remaining - 1 }
  /-- An RLE4 literal in a low nibble (R144). -/
  | literalLow : s.row ≠ s.cfg.height → s.st = .absolute → s.remaining ≠ 0 → s.cfg.mode = .rle4 → s.wantsLeft = false →
      s.pos.toNat + 1 ≤ s.cfg.len.toNat →
      StepEffect s { (s.emit (rawOfNibble (lowNibble (s.mem.read s.pos.toNat)))).advance 1 with remaining := s.remaining - 1 }

theorem advance_two_pos {s : State} (h : s.pos.toNat + 2 ≤ s.cfg.len.toNat) : (s.advance 2).pos.toNat = s.pos.toNat + 2 :=
  State.advance_pos_toNat (by have := s.len_lt; omega)

/-- The fetch with two bytes in the window does one of the opcodes' effects. -/
theorem exec_effect {s t : State} (hd : s.row ≠ s.cfg.height) (hst : s.st = .starting) (ha : s.pos.toNat + 2 ≤ s.cfg.len.toNat)
    (h : exec (decodeOpcode s.cfg.mode (s.mem.read s.pos.toNat) (s.mem.read (s.pos.toNat + 1))) (s.advance 2) = .next t) :
    StepEffect s t := by
  have hp := advance_two_pos ha
  rcases classify_cases (s.mem.read s.pos.toNat) (s.mem.read (s.pos.toNat + 1)) with
    ⟨h0, h1, hc⟩ | ⟨h0, h1, hc⟩ | ⟨h0, h1, hc⟩ | ⟨h0, h1, hc⟩ | ⟨h0, hc⟩
  · have he : endOfLine (s.advance 2) = .next t := by
      cases hm : s.cfg.mode <;> (rw [decodeOpcode, hc, hm] at h; exact h)
    by_cases hcol : s.col = 0
    · rw [endOfLine_at_start (show (s.advance 2).col = 0 from hcol)] at he
      cases he
      exact .eolSkip hd hst ha h0 h1 hcol
    · rw [endOfLine_midrow (show (s.advance 2).col ≠ 0 from hcol)] at he
      cases he
      exact .eolEnd hd hst ha h0 h1 hcol
  · have he : t = (s.advance 2).raiseEnd .eob := by
      cases hm : s.cfg.mode <;> (rw [decodeOpcode, hc, hm] at h; cases h; rfl)
    subst he
    exact .eobEnd hd hst ha h0 h1
  · have he : t = (s.advance 2).raiseEnd .delta := by
      cases hm : s.cfg.mode <;> (rw [decodeOpcode, hc, hm] at h; cases h; rfl)
    subst he
    exact .deltaEnd hd hst ha h0 h1
  · by_cases hl : s.pos.toNat + 3 ≤ s.cfg.len.toNat
    · have hav : (s.advance 2).pos.toNat + 1 ≤ (s.advance 2).cfg.len.toNat := by rw [hp]; exact hl
      cases hm : s.cfg.mode <;> rw [decodeOpcode, hc, hm] at h <;> simp only [instrOf] at h
      · rw [exec_rle8Abs_avail hav, hp] at h
        cases h
        exact .abs8 _ hd hst hm hl h0 rfl h1
      · rw [exec_rle4Abs_avail hav, hp] at h
        cases h
        exact .abs4 _ hd hst hm hl h0 rfl h1
    · have hem : (s.advance 2).cfg.len.toNat < (s.advance 2).pos.toNat + 1 := by
        rw [hp, State.advance_cfg]
        omega
      have he : t = (s.advance 2).raiseEnd .truncated := by
        cases hm : s.cfg.mode <;> rw [decodeOpcode, hc, hm] at h <;> simp only [instrOf] at h
        · rw [exec_rle8Abs_empty hem] at h
          cases h
          rfl
        · rw [exec_rle4Abs_empty hem] at h
          cases h
          rfl
      subst he
      exact .absShort hd hst (by omega) h0 h1
  · cases hm : s.cfg.mode <;> rw [decodeOpcode, hc, hm] at h <;> simp only [instrOf] at h
    · rw [exec_rle8Run] at h
      cases h
      exact .run8 _ _ hd hst hm ha rfl rfl h0
    · rw [exec_rle4Run] at h
      cases h
      exact .run4 _ _ hd hst hm ha rfl rfl h0

/-- An RLE4 absolute emission does one of its effects. -/
theorem rle4AbsEmission_effect {s t : State} (hd : s.row ≠ s.cfg.height) (hst : s.st = .absolute) (hr : s.remaining ≠ 0)
    (hm : s.cfg.mode = .rle4) (h : rle4AbsEmission s = .next t) : StepEffect s t := by
  by_cases ha : s.pos.toNat + 1 ≤ s.cfg.len.toNat
  · cases hw : s.wantsLeft
    · rw [rle4AbsEmission, hw, if_neg (by decide), rle4LowLiteral_avail ha] at h
      cases h
      exact .literalLow hd hst hr hm hw ha
    · rw [rle4AbsEmission, hw, if_pos rfl, rle4HighLiteral_avail ha] at h
      cases h
      by_cases h1 : s.remaining = 1
      · rw [if_pos h1]
        exact .literalLastHigh hd hst h1 hm hw ha
      · rw [if_neg h1]
        exact .literalHigh hd hst hr h1 hm hw ha
  · cases hw : s.wantsLeft
    · rw [rle4AbsEmission, hw, if_neg (by decide), rle4LowLiteral_outside ha] at h
      cases h
    · rw [rle4AbsEmission, hw, if_pos rfl, rle4HighLiteral_empty (by omega)] at h
      cases h
      exact .literalShort hd hst hr (fun _ => hw) (by omega)

/-- Every step that answers a next state did one of the effects. -/
theorem step_effect {s t : State} (h : step s = .next t) : StepEffect s t := by
  by_cases hend : s.st = .ended ∨ s.row = s.cfg.height
  · rw [step_after_end hend] at h
    cases h
    exact .afterEnd hend
  · obtain ⟨he, hd⟩ := not_or.mp hend
    cases hst : s.st with
    | ended => exact absurd hst he
    | starting =>
      rw [step_starting hst hd] at h
      by_cases ha : s.pos.toNat + 2 ≤ s.cfg.len.toNat
      · rw [opcodeFetch_avail ha] at h
        exact exec_effect hd hst ha h
      · rw [opcodeFetch_short (by omega)] at h
        cases h
        exact .fetchShort hd hst (by omega)
    | running =>
      rw [step_running hst hd] at h
      by_cases hr : s.remaining = 0
      · rw [if_pos hr] at h
        cases h
        exact .runEpilogue hd hst hr
      · rw [if_neg hr, runEmission_eq] at h
        cases h
        exact .runEmission hd hst hr
    | absolute =>
      rw [step_absolute hst hd] at h
      by_cases hr : s.remaining = 0
      · rw [if_pos hr] at h
        by_cases hpad : s.padding = true
        · by_cases ha : s.pos.toNat + 1 ≤ s.cfg.len.toNat
          · simp only [absEpilogue, hpad, (State.avail_eq_true s 1).mpr ha, if_true] at h
            cases h
            exact .absPad hd hst hr hpad ha
          · simp only [absEpilogue, hpad, (State.avail_eq_false s 1).mpr (by omega), if_true] at h
            cases h
            exact .padShort hd hst hr hpad (by omega)
        · rw [absEpilogue, if_neg hpad] at h
          cases h
          exact .absEpilogue hd hst hr (Bool.eq_false_iff.mpr hpad)
      · rw [if_neg hr] at h
        cases hm : s.cfg.mode
        · simp only [absEmission, hm, rle8AbsEmission] at h
          by_cases ha : s.pos.toNat + 1 ≤ s.cfg.len.toNat
          · rw [rle8Literal_avail ha] at h
            cases h
            exact .literal8 hd hst hr hm ha
          · rw [rle8Literal_empty (by omega)] at h
            cases h
            exact .literalShort hd hst hr (fun hm' => by simp [hm] at hm') (by omega)
        · simp only [absEmission, hm] at h
          exact rle4AbsEmission_effect hd hst hr hm h

/-! ## What a step answers -/

/-- How one step bears on the call in progress: it leaves it in progress and the counters alone (then it returns to STARTING before the
end), or answers `NONE` at an end, or answers a pixel whose raw value fits the mode. Configuration and window stand in every case. -/
theorem step_response {s t : State} (h : step s = .next t) :
    t.cfg = s.cfg ∧ t.mem = s.mem ∧
      ((t.resps = s.resps ∧ t.col = s.col ∧ t.row = s.row ∧ t.st = .starting ∧ s.row ≠ s.cfg.height) ∨
        (t.resps = s.resps ++ [.none] ∧ t.col = s.col ∧ t.row = s.row ∧ (t.st = .ended ∨ t.row = t.cfg.height)) ∨
        (∃ raw, s.EmitsTo raw t ∧ s.row ≠ s.cfg.height ∧ (s.cfg.mode = .rle8 → raw.toNat < 256) ∧
          (s.cfg.mode = .rle4 → raw.toNat < 16))) := by
  have b8 : ∀ b : Byte, (rawOfByte b).toNat < 256 := fun b => by
    rw [rawOfByte_toNat]
    exact b.isLt
  have b4 : ∀ b : Nibble, (rawOfNibble b).toNat < 16 := fun b => by
    rw [rawOfNibble_toNat]
    exact b.isLt
  have is8 : ∀ {p : Prop}, s.cfg.mode = .rle8 → s.cfg.mode = .rle4 → p := fun h h' => by
    rw [h] at h'
    cases h'
  cases step_effect h with
  | afterEnd he => exact ⟨rfl, rfl, .inr (.inl ⟨rfl, rfl, rfl, he⟩)⟩
  | fetchShort | eolEnd | eobEnd | deltaEnd | absShort | padShort | literalShort =>
    exact ⟨rfl, rfl, .inr (.inl ⟨rfl, rfl, rfl, .inl rfl⟩)⟩
  | eolSkip hd hst => exact ⟨rfl, rfl, .inl ⟨rfl, rfl, rfl, hst, hd⟩⟩
  | runEpilogue hd | absEpilogue hd | absPad hd => exact ⟨rfl, rfl, .inl ⟨rfl, rfl, rfl, rfl, hd⟩⟩
  | run8 l v hd hst hm =>
    exact ⟨rfl, rfl, .inr (.inr ⟨rawOfByte v, .of_advance (n := 2) (.of_eq rfl rfl rfl), hd, fun _ => b8 _, is8 hm⟩)⟩
  | run4 l v hd hst hm =>
    exact ⟨rfl, rfl, .inr (.inr ⟨rawOfNibble (highNibble v), .of_advance (n := 2) (.of_eq rfl rfl rfl), hd,
      fun h => is8 h hm, fun _ => b4 _⟩)⟩
  | abs8 n hd hst hm =>
    exact ⟨rfl, rfl, .inr (.inr ⟨rawOfByte (s.mem.read (s.pos.toNat + 2)), .of_advance (n := 2) (.of_eq rfl rfl rfl), hd,
      fun _ => b8 _, is8 hm⟩)⟩
  | abs4 n hd hst hm =>
    exact ⟨rfl, rfl, .inr (.inr ⟨rawOfNibble (highNibble (s.mem.read (s.pos.toNat + 2))),
      .of_advance (n := 2) (.of_eq rfl rfl rfl), hd, fun h => is8 h hm, fun _ => b4 _⟩)⟩
  | runEmission hd hst hr =>
    refine ⟨rfl, rfl, .inr (.inr ⟨s.runRaw, .of_eq rfl rfl rfl, hd, fun hm => ?_, fun hm => ?_⟩)⟩
    · simp only [State.runRaw, hm]
      exact b8 _
    · simp only [State.runRaw, hm]
      exact b4 _
  | literal8 hd hst hr hm =>
    exact ⟨rfl, rfl, .inr (.inr ⟨rawOfByte (s.mem.read s.pos.toNat), .of_eq rfl rfl rfl, hd, fun _ => b8 _, is8 hm⟩)⟩
  | literalHigh hd hst hr h1 hm =>
    exact ⟨rfl, rfl, .inr (.inr ⟨_, .of_eq rfl rfl rfl, hd, fun h => is8 h hm, fun _ => b4 _⟩)⟩
  | literalLastHigh hd hst h1 hm =>
    exact ⟨rfl, rfl, .inr (.inr ⟨_, .of_eq rfl rfl rfl, hd, fun h => is8 h hm, fun _ => b4 _⟩)⟩
  | literalLow hd hst h1 hm =>
    exact ⟨rfl, rfl, .inr (.inr ⟨_, .of_eq rfl rfl rfl, hd, fun h => is8 h hm, fun _ => b4 _⟩)⟩

/-! ## Several steps and calls -/

@[simp] theorem runSteps_zero (s : State) : runSteps 0 s = .next s := rfl

theorem runSteps_succ {k : Nat} {s t : State} (h : step s = .next t) : runSteps (k + 1) s = runSteps k t := by
  simp only [runSteps, h]

/-- A call whose first step answers it ends there. -/
theorem callLoop_answered {f : Nat} {s t : State} {r : Response} (h : step s = .next t) (hr : t.resps = s.resps ++ [r]) :
    callLoop (f + 1) s = .next t := by
  simp [callLoop, h, hr]

/-- A call whose first step leaves it in progress goes on. -/
theorem callLoop_goes_on {f : Nat} {s t : State} (h : step s = .next t) (hr : t.resps = s.resps) :
    callLoop (f + 1) s = callLoop f t := by
  simp [callLoop, h, hr]

end Sys2Proof.Machine
end

