-- ==== Sys2Proof/Laws/Interface.lean ====
section
/-! SUPPORT. What the byte read port shows, said once: each use of it, and the uses of a step by the state it starts in. -/

namespace Sys2Proof.Machine

/-! ## One use of the port -/

theorem State.readAt_of_lt {s : State} {a : Nat} (h : a < s.cfg.len.toNat) :
    s.readAt a = [⟨BitVec.ofNat 32 a, s.mem.read a⟩] := by
  rw [State.readAt, State.byteAt_of_lt h]

theorem State.readAt_outside {s : State} {a : Nat} (h : ¬ a < s.cfg.len.toNat) : s.readAt a = [] := by
  rw [State.readAt, State.byteAt, if_neg h]

/-- The offset on `mem_addr` is exact: an offset inside the window fits in 32 bits. -/
theorem State.readAt_addrs (s : State) (a : Nat) :
    (s.readAt a).map (fun r => r.memAddr.toNat) = if a < s.cfg.len.toNat then [a] else [] := by
  have := s.len_lt
  split
  · next h => simp [State.readAt_of_lt h, Nat.mod_eq_of_lt (show a < 4294967296 by omega)]
  · next h => simp [State.readAt_outside h]

/-- A use of the port reads inside the window and carries the window's byte (R51). -/
theorem State.readAt_sound {s : State} {a : Nat} {r : PortRead} (h : r ∈ s.readAt a) :
    r.memAddr.toNat < s.cfg.len.toNat ∧ s.byteAt r.memAddr.toNat = some r.memData := by
  have := s.len_lt
  by_cases ha : a < s.cfg.len.toNat
  · rw [State.readAt_of_lt ha, List.mem_singleton] at h
    subst h
    simp only [BitVec.toNat_ofNat, Nat.mod_eq_of_lt (show a < 2 ^ 32 by omega)]
    exact ⟨ha, State.byteAt_of_lt ha⟩
  · simp [State.readAt_outside ha] at h

/-! ## The uses of a step -/

theorem opcodeReads_subset {i : Instr} {s : State} {r : PortRead} (h : r ∈ opcodeReads i s) : r ∈ s.readAt s.pos.toNat := by
  cases i <;> first | exact h | cases h

/-- A fetch with two bytes in the window reads them, and then what the opcode reads. -/
theorem fetchReads_bytes {s : State} {b0 b1 : Byte} (h0 : s.byteAt s.pos.toNat = some b0)
    (h1 : s.byteAt (s.pos.toNat + 1) = some b1) :
    fetchReads s = s.readAt s.pos.toNat ++ s.readAt (s.pos.toNat + 1) ++
      opcodeReads (decodeOpcode s.cfg.mode b0 b1) (s.advance 2) := by
  rw [fetchReads, h0, h1]

theorem fetchReads_short {s : State} (h : s.cfg.len.toNat < s.pos.toNat + 2) : fetchReads s = [] := by
  have : s.byteAt (s.pos.toNat + 1) = none := by rw [State.byteAt, if_neg (by omega)]
  rw [fetchReads, this]
  split
  · next h => cases h
  · rfl

theorem State.portReads_after_end {s : State} (h : s.st = .ended ∨ s.row = s.cfg.height) : s.portReads = [] := by
  have : s.done = true ∨ s.st = .ended := h.symm.imp_left (State.done_eq_true s).mpr
  simp only [State.portReads, this, if_true]

theorem State.portReads_eq_microReads {s : State} (he : s.st ≠ .ended) (hd : s.row ≠ s.cfg.height) :
    s.portReads = microReads s := by
  have : ¬ (s.done = true ∨ s.st = .ended) := by simp [hd, he]
  simp only [State.portReads, this, if_false]

end Sys2Proof.Machine
end

