-- ==== Sys2Proof/Laws/Invariant.lean ====
section
/-! SUPPORT. Small facts about the invariant of Safety.lean: what it gives before the image is complete, and which updates keep its
parts. -/

namespace Sys2Proof.Machine

theorem State.Launched.of_eq {s t : State} (h : s.Launched) (hc : t.cfg = s.cfg) (hm : t.mem = s.mem) : t.Launched :=
  ⟨hc ▸ h.config, hm ▸ h.memWf, by rw [hm, hc]; exact h.memWithin⟩

/-- Before the image is complete fewer than `H` rows are. -/
theorem State.Inv.row_lt {s : State} (hi : s.Inv) (hd : s.row ≠ s.cfg.height) : s.row.toNat < s.cfg.height.toNat := by
  have := hi.inRange.row
  have : s.row.toNat ≠ s.cfg.height.toNat := fun h => hd (BitVec.eq_of_toNat_eq h)
  omega

/-- Outside END no cause stands (R30). -/
theorem State.InRange.cause_none {s : State} (h : s.InRange) (hst : s.st ≠ .ended) : s.cause = .none :=
  Decidable.not_not.mp fun hc => hst (h.cause.mpr hc)

/-- An emission before the image is complete keeps the counters in range. -/
theorem State.EmitsTo.counters_inRange {s t : State} {raw : Word} (hi : s.Inv) (hd : s.row ≠ s.cfg.height) (hcfg : t.cfg = s.cfg)
    (h : s.EmitsTo raw t) :
    t.col.toNat < t.cfg.width.toNat ∧ t.row.toNat ≤ t.cfg.height.toNat ∧ (t.row = t.cfg.height → t.col = 0) := by
  have hr := hi.row_lt hd
  rw [hcfg]
  rcases h.counters hi.inRange.col hr with ⟨he, h1, h2⟩ | ⟨he, h1, h2⟩
  · exact ⟨by omega, by omega, fun _ => BitVec.eq_of_toNat_eq h1⟩
  · refine ⟨by omega, by omega, fun hh => ?_⟩
    rw [hh] at h2
    omega

/-- Entering END after `n` bytes that lie in the window keeps the invariant. -/
theorem State.Inv.raiseEnd {s : State} (hi : s.Inv) {c : Cause} (hc : c ≠ .none) {n : Nat}
    (hp : s.pos.toNat + n ≤ s.cfg.len.toNat) : ((s.advance n).raiseEnd c).Inv := by
  have hl := s.len_lt
  refine ⟨hi.launched.of_eq rfl rfl,
    ⟨?_, hi.inRange.col, hi.inRange.row, hi.inRange.colWhenDone, by simp, by simp, rfl, by simp [hc]⟩⟩
  rw [State.raiseEnd_pos, State.advance_pos_toNat (by omega)]
  exact hp

/-- The counters never stand for more than `W·H` pixels, and for fewer before the image is complete. -/
theorem State.Inv.emitted_lt {s : State} (hi : s.Inv) (hd : s.row ≠ s.cfg.height) :
    s.emitted < s.cfg.width.toNat * s.cfg.height.toNat := by
  have hcol := hi.inRange.col
  have hmul := Nat.mul_le_mul_right s.cfg.width.toNat (hi.row_lt hd)
  rw [Nat.succ_mul] at hmul
  rw [State.emitted, Nat.mul_comm s.cfg.width.toNat]
  omega

theorem State.Inv.emitted_le {s : State} (hi : s.Inv) : s.emitted ≤ s.cfg.width.toNat * s.cfg.height.toNat := by
  by_cases hd : s.row = s.cfg.height
  · rw [State.emitted, hi.inRange.colWhenDone hd, hd, Nat.mul_comm]
    exact Nat.le_refl _
  · exact Nat.le_of_lt (hi.emitted_lt hd)

/-! ## The same state over another window -/

@[simp] theorem State.withMem_cfg (s : State) (m : Memory) : (s.withMem m).cfg = s.cfg := rfl
@[simp] theorem State.withMem_mem (s : State) (m : Memory) : (s.withMem m).mem = m := rfl
@[simp] theorem State.withMem_st (s : State) (m : Memory) : (s.withMem m).st = s.st := rfl
@[simp] theorem State.withMem_remaining (s : State) (m : Memory) : (s.withMem m).remaining = s.remaining := rfl
@[simp] theorem State.withMem_value (s : State) (m : Memory) : (s.withMem m).value = s.value := rfl
@[simp] theorem State.withMem_parity (s : State) (m : Memory) : (s.withMem m).parity = s.parity := rfl
@[simp] theorem State.withMem_padding (s : State) (m : Memory) : (s.withMem m).padding = s.padding := rfl
@[simp] theorem State.withMem_pos (s : State) (m : Memory) : (s.withMem m).pos = s.pos := rfl
@[simp] theorem State.withMem_col (s : State) (m : Memory) : (s.withMem m).col = s.col := rfl
@[simp] theorem State.withMem_row (s : State) (m : Memory) : (s.withMem m).row = s.row := rfl
@[simp] theorem State.withMem_cause (s : State) (m : Memory) : (s.withMem m).cause = s.cause := rfl
@[simp] theorem State.withMem_resps (s : State) (m : Memory) : (s.withMem m).resps = s.resps := rfl

/-! ## The host's run of the core is `runSteps` -/

/-- `Host.Core.run` of this core. -/
theorem core_run_eq_runSteps (k : Nat) (s : State) : Host.Core.run Sys2Proof.core k s = runSteps k s := by
  induction k generalizing s with
  | zero => rfl
  | succ k ih =>
    simp only [Host.Core.run, runSteps, Sys2Proof.core]
    cases hs : step s with
    | next t => exact ih t
    | fault r => rfl
    | refused r => rfl

end Sys2Proof.Machine
end

