-- ==== Sys2Proof/Laws/PerInstr.lean ====
section
/-! SUPPORT. The family OpcodeShape, one lemma per constructor: every opcode is two bytes, its first byte is 0 exactly when it is no
encoded run (30_encoding.md R70), and its record is at least the opcode long (R77). -/

namespace Sys2Proof.Laws.OpcodeShape

/-- R70, R77: what every well-formed instruction's opcode looks like. -/
def Statement (i : Instr) : Prop :=
  i.wellFormed = true →
    (encode i).length = 2 ∧ ((encode i)[0]? = some 0 ↔ ∀ l v, i.opClass ≠ .run l v) ∧ 2 ≤ Machine.recordLength i

theorem rle8Eol : Statement .rle8Eol := fun _ => ⟨rfl, by simp [encode, Instr.opClass, OpClass.bytes], Nat.le_refl 2⟩
theorem rle8Eob : Statement .rle8Eob := fun _ => ⟨rfl, by simp [encode, Instr.opClass, OpClass.bytes], Nat.le_refl 2⟩
theorem rle8Delta : Statement .rle8Delta := fun _ => ⟨rfl, by simp [encode, Instr.opClass, OpClass.bytes], Nat.le_refl 2⟩
theorem rle8Abs (n : Byte) : Statement (.rle8Abs n) := fun _ =>
  ⟨rfl, by simp [encode, Instr.opClass, OpClass.bytes], Nat.le_add_right 2 _⟩

/-- A run of length 1 or more has a first byte other than 0. -/
theorem first_byte_of_run {l : Byte} (v : Byte) (h : 1 ≤ l.toNat) : ¬ [l, v][0]? = some 0 := by
  intro e
  have : l = 0 := by simpa using e
  subst this
  exact absurd h (by decide)

theorem rle8Run (l v : Byte) : Statement (.rle8Run l v) := fun h =>
  ⟨rfl, ⟨fun e => absurd e (first_byte_of_run v (of_decide_eq_true h)), fun e => absurd rfl (e l v)⟩, Nat.le_refl 2⟩
theorem rle4Eol : Statement .rle4Eol := fun _ => ⟨rfl, by simp [encode, Instr.opClass, OpClass.bytes], Nat.le_refl 2⟩
theorem rle4Eob : Statement .rle4Eob := fun _ => ⟨rfl, by simp [encode, Instr.opClass, OpClass.bytes], Nat.le_refl 2⟩
theorem rle4Delta : Statement .rle4Delta := fun _ => ⟨rfl, by simp [encode, Instr.opClass, OpClass.bytes], Nat.le_refl 2⟩
theorem rle4Abs (n : Byte) : Statement (.rle4Abs n) := fun _ =>
  ⟨rfl, by simp [encode, Instr.opClass, OpClass.bytes], Nat.le_add_right 2 _⟩
theorem rle4Run (l v : Byte) : Statement (.rle4Run l v) := fun h =>
  ⟨rfl, ⟨fun e => absurd e (first_byte_of_run v (of_decide_eq_true h)), fun e => absurd rfl (e l v)⟩, Nat.le_refl 2⟩

end Sys2Proof.Laws.OpcodeShape
end

