-- ==== Sys2Proof/Tests/Slice0.lean ====
section
/-! SUPPORT. The model's own tests: expected values are hand-worked from the rules or stand in spec/95_test_vectors.md (named in each
comment). The witnesses at the end meet the hypotheses of the statements. -/

namespace Sys2Proof.Tests

open Sys2Proof.Machine

/-! ## Helpers -/

/-- A decoder at reset over a window of the given bytes. -/
def fresh (m : Mode) (w h : Nat) (bytes : List Byte) : State :=
  State.resetWith ⟨m, BitVec.ofNat 32 w, BitVec.ofNat 32 h, BitVec.ofNat 32 bytes.length⟩ (Memory.ofBytes bytes)

/-- What `f` reads from the next state, if there is one. -/
def seen {α : Type} (f : State → α) : Outcome → Option α
  | .next t => some (f t)
  | .fault _ => none
  | .refused _ => none

/-- The registers a step may write, and the last response. -/
structure Regs where
  st : FsmState
  remaining : Nat
  value : Nat
  parity : Bool
  padding : Bool
  pos : Nat
  resp : Option Response
  deriving DecidableEq, Repr

/-- Those registers of a state. -/
def regs (s : State) : Regs :=
  ⟨s.st, s.remaining.toNat, s.value.toNat, s.parity, s.padding, s.pos.toNat, s.resps.getLast?⟩

/-- Position counters and cause. -/
def counters (s : State) : Nat × Nat × Cause := (s.col.toNat, s.row.toNat, s.cause)

/-- A response `PIXEL{x, y, raw}`. -/
def px (x y raw : Nat) : Response := .pixel ⟨BitVec.ofNat 32 x, BitVec.ofNat 32 y, BitVec.ofNat 32 raw⟩

/-! ## WellFormed smoke: an ill-formed term for each check (R73) -/

theorem test_wf_run_length_zero8 : (Instr.rle8Run 0 7).wellFormed = false := by decide
theorem test_wf_run_length_zero4 : (Instr.rle4Run 0 7).wellFormed = false := by decide
theorem test_wf_abs_count_two8 : (Instr.rle8Abs 2).wellFormed = false := by decide
theorem test_wf_abs_count_two4 : (Instr.rle4Abs 2).wellFormed = false := by decide
theorem test_wf_bounds : (Instr.rle8Run 1 0).wellFormed = true ∧ (Instr.rle4Abs 3).wellFormed = true := by decide

/-! ## Decoding: words written out bit by bit from R80 -/

theorem test_decode_eol : decode .rle8 [0b00000000, 0b00000000] = .ok (.rle8Eol, []) ∧
    decode .rle4 [0b00000000, 0b00000000] = .ok (.rle4Eol, []) := by decide
theorem test_decode_eob : decode .rle8 [0b00000000, 0b00000001, 0xFF] = .ok (.rle8Eob, [0xFF]) ∧
    decode .rle4 [0b00000000, 0b00000001] = .ok (.rle4Eob, []) := by decide
theorem test_decode_delta : decode .rle8 [0b00000000, 0b00000010] = .ok (.rle8Delta, []) ∧
    decode .rle4 [0b00000000, 0b00000010] = .ok (.rle4Delta, []) := by decide
theorem test_decode_abs : decode .rle8 [0b00000000, 0b00000011] = .ok (.rle8Abs 3, []) ∧
    decode .rle4 [0b00000000, 0b11111111] = .ok (.rle4Abs 255, []) := by decide
theorem test_decode_run : decode .rle8 [0b00000001, 0b00000000] = .ok (.rle8Run 1 0, []) ∧
    decode .rle4 [0b11111111, 0b10101011] = .ok (.rle4Run 255 0xAB, []) := by decide
theorem test_decode_truncated : decode .rle8 [0x03] = .error .truncatedOpcode ∧ decode .rle4 [] = .error .truncatedOpcode := by
  decide
/-- R71: `OP = b0·256 + b1`. -/
theorem test_table_word : decodeTableWord 16 0x0241 = some (.rle8Run 2 0x41) ∧ decodeTableWord 16 0x0001 = some .rle8Eob ∧
    decodeTableWord 16 0x0005 = some (.rle8Abs 5) := by decide

/-! ## One step from reset, by opcode -/

/-- T1, call 1. -/
theorem test_rle8_run : seen regs (step (fresh .rle8 8 1 [0x02, 0x41])) =
    some ⟨.running, 1, 0x41, false, false, 2, some (px 0 0 0x41)⟩ := by decide
/-- T26: with W = 1 the first emission wraps. -/
theorem test_rle8_run_wraps : seen counters (step (fresh .rle8 1 3 [0x03, 0x07])) = some (0, 1, .none) := by decide
/-- T5, call 1. -/
theorem test_rle8_abs : seen regs (step (fresh .rle8 8 1 [0x00, 0x03, 0x0A, 0x0B, 0x0C, 0x00])) =
    some ⟨.absolute, 2, 0, true, true, 3, some (px 0 0 0x0A)⟩ := by decide
/-- T8: the check comes before the flags. -/
theorem test_rle8_abs_truncated : seen regs (step (fresh .rle8 8 1 [0x00, 0x03])) =
    some ⟨.ended, 0, 0, false, false, 2, some .none⟩ := by decide
/-- T19: `EOL` at reset. -/
theorem test_rle8_eol_at_start : step (fresh .rle8 2 1 [0x00, 0x00, 0x02, 0x09]) =
    .next ((fresh .rle8 2 1 [0x00, 0x00, 0x02, 0x09]).advance 2) := rfl
/-- T20 at the third call: `EOL` with `col = 2`. -/
theorem test_rle8_eol_midrow : seen counters (exec .rle8Eol { fresh .rle8 4 1 [] with col := 2 }) = some (2, 0, .eolMidrow) := by
  decide
/-- T22. -/
theorem test_rle8_eob : seen (fun t => (regs t, t.cause)) (step (fresh .rle8 8 1 [0x00, 0x01, 0xFF, 0xFF])) =
    some (⟨.ended, 0, 0, false, false, 2, some .none⟩, .eob) := by decide
/-- T23's second opcode. -/
theorem test_rle8_delta : seen (fun t => (t.st, t.cause, t.pos)) (step (fresh .rle8 8 1 [0x00, 0x02])) =
    some (.ended, .delta, 2) := by decide
/-- T10, call 1. -/
theorem test_rle4_run : seen regs (step (fresh .rle4 8 1 [0x05, 0xAB])) =
    some ⟨.running, 4, 0xAB, true, false, 2, some (px 0 0 0xA)⟩ := by decide
/-- T14, call 1: `N = 5`, `pos` stays on the literal byte. -/
theorem test_rle4_abs : seen regs (step (fresh .rle4 8 1 [0x00, 0x05, 0x12, 0x34, 0x50, 0x00])) =
    some ⟨.absolute, 4, 0, true, true, 2, some (px 0 0 1)⟩ := by decide
/-- `N = 3` takes no pad (T13). -/
theorem test_rle4_abs_no_pad : seen (fun t => t.padding) (step (fresh .rle4 8 1 [0x00, 0x03, 0x12, 0x30])) = some false := by decide
theorem test_rle4_eol : seen counters (exec .rle4Eol { fresh .rle4 4 1 [] with col := 3 }) = some (3, 0, .eolMidrow) := by decide
theorem test_rle4_eob : seen counters (step (fresh .rle4 8 1 [0x00, 0x01])) = some (0, 0, .eob) := by decide
theorem test_rle4_delta : seen counters (step (fresh .rle4 8 1 [0x00, 0x02])) = some (0, 0, .delta) := by decide

/-! ## The other micro-steps -/

/-- The state of T10 after call 1: RUNNING, `remaining = 4`. -/
def running4 : State :=
  { fresh .rle4 8 1 [0x05, 0xAB] with st := .running, remaining := 4, value := 0xAB, parity := true, pos := 2, col := 1 }

/-- The state of T14 after `k` literals have been taken. -/
def absolute4 (remaining pos col : Nat) : State :=
  { fresh .rle4 8 1 [0x00, 0x05, 0x12, 0x34, 0x50, 0x00] with
    st := .absolute, remaining := BitVec.ofNat 8 remaining, parity := true, padding := true, pos := BitVec.ofNat 32 pos,
    col := BitVec.ofNat 32 col }

/-- The state of T5 after `3 − remaining` literals. -/
def absolute8 (remaining pos col : Nat) : State :=
  { fresh .rle8 8 1 [0x00, 0x03, 0x0A, 0x0B, 0x0C, 0x00] with
    st := .absolute, remaining := BitVec.ofNat 8 remaining, parity := true, padding := true, pos := BitVec.ofNat 32 pos,
    col := BitVec.ofNat 32 col }

/-- R142's example: `want_left(4, 1)` is false, so the low nibble. -/
theorem test_rle4_run_emission : seen regs (step running4) = some ⟨.running, 3, 0xAB, true, false, 2, some (px 1 0 0xB)⟩ := by
  decide
/-- R144's example: low nibble 2 with `pos + 1`, then the last high nibble 5 with `k = 1`. -/
theorem test_rle4_abs_low : seen regs (step (absolute4 4 2 1)) =
    some ⟨.absolute, 3, 0, true, true, 3, some (px 1 0 2)⟩ := by decide
theorem test_rle4_abs_last_high : seen regs (step (absolute4 1 4 4)) =
    some ⟨.absolute, 0, 0, true, true, 5, some (px 4 0 5)⟩ := by decide
/-- R123's example. -/
theorem test_rle8_abs_emission : seen regs (step (absolute8 2 3 1)) =
    some ⟨.absolute, 1, 0, true, true, 4, some (px 1 0 0x0B)⟩ := by decide
/-- R106's example: `pos` 5 to 6. -/
theorem test_abs_epilogue : seen regs (step (absolute8 0 5 3)) = some ⟨.starting, 0, 0, true, true, 6, none⟩ := by decide
/-- R104's example. -/
theorem test_run_epilogue : seen regs (step { running4 with remaining := 0 }) =
    some ⟨.starting, 0, 0xAB, true, false, 2, none⟩ := by decide
/-- T25: one byte left is never read. -/
theorem test_fetch_one_byte : seen (fun t => (regs t, t.cause)) (step (fresh .rle8 8 1 [0x03])) =
    some (⟨.ended, 0, 0, false, false, 0, some .none⟩, .truncated) := by decide
/-- R102's example on the read port: the two opcode bytes. -/
theorem test_port_run : (fresh .rle8 8 1 [0x02, 0x41]).portReads = [⟨0, 0x02⟩, ⟨1, 0x41⟩] := by decide
/-- R122: the opcode's step reads literal 0 too; R102: one byte left is never read. -/
theorem test_port_abs : (fresh .rle8 8 1 [0x00, 0x03, 0x0A, 0x0B, 0x0C, 0x00]).memAddrs = [0, 1, 2] ∧
    (fresh .rle8 8 1 [0x03]).memAddrs = [] := by decide
/-- R144: the low-nibble step reads `M[pos]` again. -/
theorem test_port_low_nibble : (absolute4 4 2 1).portReads = [⟨2, 0x12⟩] := by decide
/-- P1's and P3's STATUS words. -/
theorem test_status : ({ fresh .rle8 4 2 [] with st := .running, row := 2 } : State).status = 0x21 ∧
    ({ fresh .rle8 3 3 [] with st := .ended, cause := .eolMidrow, row := 1, col := 2 } : State).status = 0x13 := by decide
/-- R140: the first value of a run takes the high nibble. -/
theorem test_want_left : wantLeft 5 true = true ∧ wantLeft 4 true = false ∧ wantLeft 4 false = true := by decide
/-- R81, P2's third statement: five nibbles, the unused low nibble and the pad written as 0. -/
theorem test_assemble_abs4 : assemble [.abs4 [1, 2, 3, 4, 5], .run 1 0xC0] =
    [0x00, 0x05, 0x12, 0x34, 0x50, 0x00, 0x01, 0xC0] := by decide
/-- R81, P1's fourth statement. -/
theorem test_assemble_abs8 : assemble [.abs8 [0x0A, 0x0B, 0x0C]] = [0x00, 0x03, 0x0A, 0x0B, 0x0C, 0x00] := by decide
/-- T27: a stored height of −2 gives H = 2. -/
theorem test_launch_top_down : (launch ⟨1, 8, 2, -2, 2, 1, [0xEE, 0x00, 0x01]⟩).map (fun s => (s.cfg.height, s.byteAt 1)) =
    some (2, some 1) := by decide
/-- The host's word placed at reset is fetched by the next step. -/
theorem test_fetch_word : seen counters (step (State.reset.withFetchWord 16 0x0001)) = some (0, 0, .eob) := by
  decide +kernel
/-- The canonical window: writing 0x00 removes the entry. -/
theorem test_memory_canonical : ((Memory.write [] 3 7).write 1 9).write 3 0 = [(1, 9)] := by decide

/-! ## Witnesses: concrete states and operands that meet the hypotheses of each statement -/

/-- A launched state inside the ranges, from checks that evaluate. -/
theorem inv_of {s : State} (h1 : s.cfg.Legal) (h2 : s.mem.wf = true) (h3 : s.mem.within s.cfg.len.toNat = true)
    (h4 : s.pos.toNat ≤ s.cfg.len.toNat ∧ s.col.toNat < s.cfg.width.toNat ∧ s.row.toNat ≤ s.cfg.height.toNat ∧
      (s.row = s.cfg.height → s.col = 0) ∧ s.remaining.toNat ≤ 254 ∧ s.pos.toNat < s.cfg.len.toNat ∧ s.aligned = true)
    (h5 : s.st = .ended ↔ s.cause ≠ .none) : s.Inv :=
  ⟨⟨h1, h2, h3⟩, ⟨h4.1, h4.2.1, h4.2.2.1, h4.2.2.2.1, fun _ => h4.2.2.2.2.1, fun _ _ _ _ => h4.2.2.2.2.2.1, h4.2.2.2.2.2.2, h5⟩⟩

/-- A fresh RLE8 decoder of one row of eight. -/
def start8 : State := fresh .rle8 8 1 [0x02, 0x41, 0x00, 0x03, 0x0A, 0x0B, 0x0C, 0x00]

/-- A fresh RLE4 decoder of one row of eight. -/
def start4 : State := fresh .rle4 8 1 [0x05, 0xAB, 0x00, 0x05, 0x12, 0x34, 0x50, 0x00]

theorem inv_start8 : start8.Inv := inv_of (by decide) rfl rfl (by decide) (by decide)
theorem inv_start4 : start4.Inv := inv_of (by decide) rfl rfl (by decide) (by decide)
theorem inv_absolute8 : (absolute8 2 3 1).Inv := inv_of (by decide) rfl rfl (by decide) (by decide)
theorem inv_absolute4 : (absolute4 4 2 1).Inv := inv_of (by decide) rfl rfl (by decide) (by decide)

theorem witness_ResetLeavesSpecValues : ({ start8 with st := .ended } : State).st = .ended := rfl
theorem witness_DecodeFollowsPriority : 3 ≤ (3 : Byte).toNat ∧ 3 ≤ (255 : Byte).toNat ∧ 1 ≤ (1 : Byte).toNat := by decide
theorem witness_DecodeOfEncode : (Instr.rle8Run 1 0).wellFormed = true ∧ (Instr.rle4Run 255 0xFF).wellFormed = true ∧
    (Instr.rle8Abs 3).wellFormed = true ∧ (Instr.rle4Abs 255).wellFormed = true ∧ Instr.rle8Eol.wellFormed = true := by decide
theorem witness_RecordLengths : (4 : Byte).toNat % 4 = 0 ∧ (5 : Byte).toNat % 4 = 1 ∧ (6 : Byte).toNat % 4 = 2 ∧
    (3 : Byte).toNat % 4 = 3 ∧ (255 : Byte).toNat % 4 = 3 := by decide
theorem witness_AssembledLiteralsReadBack : 3 ≤ ([1, 2, 3] : List Byte).length ∧ ([1, 2, 3] : List Byte).length ≤ 255 ∧
    3 ≤ (List.replicate 255 (0xF : Nibble)).length ∧ (List.replicate 255 (0xF : Nibble)).length ≤ 255 := by
  rw [List.length_replicate]; decide
theorem witness_Rle8RunResult : 1 ≤ (1 : Byte).toNat ∧ 1 ≤ (255 : Byte).toNat := by decide
/-- `N` at both ends; a literal byte at the last offset of the window, and a cursor at its end. -/
theorem witness_Rle8AbsResult : 3 ≤ (3 : Byte).toNat ∧ 3 ≤ (255 : Byte).toNat ∧
    ({ start8 with pos := 7 } : State).pos.toNat + 1 ≤ start8.cfg.len.toNat ∧
    start8.cfg.len.toNat < ({ start8 with pos := 8 } : State).pos.toNat + 1 := by decide
theorem witness_Rle4RunResult : 1 ≤ (1 : Byte).toNat ∧ 1 ≤ (255 : Byte).toNat := by decide
theorem witness_Rle4AbsResult : 3 ≤ (3 : Byte).toNat ∧ 3 ≤ (255 : Byte).toNat ∧
    ({ start4 with pos := 7 } : State).pos.toNat + 1 ≤ start4.cfg.len.toNat ∧
    start4.cfg.len.toNat < ({ start4 with pos := 8 } : State).pos.toNat + 1 := by decide
theorem witness_EndOfLineResult : start8.col = 0 ∧ ({ start8 with col := 1 } : State).col ≠ 0 := by decide
theorem witness_ExecFrame : exec (.rle8Run 2 0x41) start8 = .next { start8.emit 0x41 with
    remaining := 1, value := 0x41, parity := false, st := .running } := rfl
theorem witness_EscapeFrame : Instr.rle4Delta ∈ [Instr.rle8Eol, .rle8Eob, .rle8Delta, .rle4Eol, .rle4Eob, .rle4Delta] ∧
    exec .rle4Delta start4 = .next (start4.raiseEnd .delta) := ⟨by decide, rfl⟩
theorem witness_RunFrame : ∃ t, exec (.rle4Run 5 0xAB) start4 = .next t := ⟨_, rfl⟩
theorem witness_AbsFrame : (∃ t, exec (.rle4Abs 5) { start4 with pos := 4 } = .next t ∧ t.st ≠ .ended) ∧
    (∃ t, exec (.rle8Abs 3) { start8 with pos := 8 } = .next t ∧ t.st = .ended) :=
  ⟨⟨_, exec_rle4Abs_avail (by decide) 5, by decide⟩, ⟨_, exec_rle8Abs_empty (by decide) 3, rfl⟩⟩
/-- The last two bytes of the window decode; with one byte left none do. -/
theorem witness_StepRunsDecodedInstruction :
    ({ start8 with pos := 6 } : State).st = .starting ∧ start8.row ≠ start8.cfg.height ∧ start8.byteAt 6 = some 0x0C ∧
    start8.byteAt 7 = some 0x00 ∧ decode .rle8 (0x0C :: 0x00 :: []) = .ok (.rle8Run 0x0C 0, []) ∧
    start8.cfg.len.toNat < ({ start8 with pos := 7 } : State).pos.toNat + 2 := by decide
theorem witness_FetchWordIsRunNext : State.reset.cfg.height ≠ 0 ∧ State.reset.mem.wf = true ∧ 16 ≤ 8 * maxRecordLength ∧
    (decode State.reset.cfg.mode (tableRecordBytes 16 0x0003)).toOption.map Prod.fst = some (.rle8Abs 3) := by decide
theorem witness_Rle8RunEmission : let s : State := { start8 with st := .running, remaining := 1, value := 0x41 }
    s.st = .running ∧ s.cfg.mode = .rle8 ∧ 1 ≤ s.remaining.toNat ∧ s.row ≠ s.cfg.height := by decide
theorem witness_Rle4RunEmission : running4.st = .running ∧ running4.cfg.mode = .rle4 ∧ 1 ≤ running4.remaining.toNat ∧
    running4.row ≠ running4.cfg.height ∧ ((running4.remaining.toNat - 1) % 2 = 1 ↔ running4.parity = true) ∧
    (((1 : Byte).toNat - 1) % 2 = 1 ↔ running4.parity = false) := by decide
theorem witness_Rle8AbsEmission : (absolute8 2 3 1).st = .absolute ∧ (absolute8 2 3 1).cfg.mode = .rle8 ∧
    1 ≤ (absolute8 1 5 1).remaining.toNat ∧ (absolute8 2 3 1).row ≠ (absolute8 2 3 1).cfg.height ∧
    (absolute8 1 5 1).pos.toNat + 1 ≤ (absolute8 1 5 1).cfg.len.toNat ∧
    (absolute8 1 6 1).cfg.len.toNat < (absolute8 1 6 1).pos.toNat + 1 := by decide
theorem witness_Rle4AbsEmission : (absolute4 4 2 1).st = .absolute ∧ (absolute4 4 2 1).cfg.mode = .rle4 ∧
    1 ≤ (absolute4 4 2 1).remaining.toNat ∧ (absolute4 4 2 1).row ≠ (absolute4 4 2 1).cfg.height ∧
    wantLeft (absolute4 4 2 1).remaining.toNat true = false ∧ (absolute4 4 5 1).pos.toNat < (absolute4 4 5 1).cfg.len.toNat ∧
    wantLeft (absolute4 1 5 4).remaining.toNat true = true ∧
    (absolute4 1 5 4).pos.toNat + 1 ≤ (absolute4 1 5 4).cfg.len.toNat ∧
    (absolute4 1 6 4).cfg.len.toNat < (absolute4 1 6 4).pos.toNat + 1 := by decide
theorem witness_RunEpilogue : let s : State := { running4 with remaining := 0 }
    s.st = .running ∧ s.remaining = 0 ∧ s.row ≠ s.cfg.height := by decide
theorem witness_AbsoluteEpilogue : (absolute8 0 5 3).st = .absolute ∧ (absolute8 0 5 3).remaining = 0 ∧
    (absolute8 0 5 3).row ≠ (absolute8 0 5 3).cfg.height ∧ (absolute8 0 5 3).padding = true ∧
    (absolute8 0 5 3).pos.toNat + 1 ≤ (absolute8 0 5 3).cfg.len.toNat ∧
    (absolute8 0 6 3).cfg.len.toNat < (absolute8 0 6 3).pos.toNat + 1 ∧
    ({ absolute8 0 5 3 with padding := false } : State).padding = false := by decide
/-- A step that ends decoding, from a state that meets the invariant (T22). -/
theorem witness_EveryEnd : ∃ s t : State, s.Inv ∧ s.st ≠ .ended ∧ step s = .next t ∧ t.st = .ended :=
  ⟨fresh .rle8 8 1 [0x00, 0x01, 0xFF, 0xFF], _, inv_of (by decide) rfl rfl (by decide) (by decide), by decide, rfl, rfl⟩
theorem witness_SelectorLaw : 1 ≤ 1 ∧ 1 ≤ 255 ∧ 255 ≤ 255 := by decide
theorem witness_ResetMeetsInvariant : start8.cfg.Legal ∧ start8.mem.wf = true ∧ start8.mem.within start8.cfg.len.toNat = true ∧
    (Config.mk .rle4 (BitVec.ofNat 32 (2 ^ 31 - 1)) (BitVec.ofNat 32 (2 ^ 31)) (BitVec.ofNat 32 (2 ^ 32 - 1))).Legal := by decide
/-- Every kind of good state steps on: an opcode, a literal of each mode. -/
theorem witness_StepKeepsInvariant : (start8.Inv ∧ (step start8 |> seen (fun t => t.st)) = some .running) ∧
    ((absolute8 2 3 1).Inv ∧ (step (absolute8 2 3 1) |> seen (fun t => t.st)) = some .absolute) ∧
    ((absolute4 4 2 1).Inv ∧ (step (absolute4 4 2 1) |> seen (fun t => t.st)) = some .absolute) :=
  ⟨⟨inv_start8, by decide⟩, ⟨inv_absolute8, by decide⟩, ⟨inv_absolute4, by decide⟩⟩
theorem witness_StepIsTotal : (absolute4 4 2 1).Inv := inv_absolute4
theorem witness_OpcodesAtEvenOffsets : start4.cfg.Legal ∧ start4.mem.wf = true ∧
    start4.mem.within start4.cfg.len.toNat = true ∧ (runSteps 6 start4 |> seen (fun t => t.st)) = some .starting := by decide
theorem witness_WindowNeverChanges : ∃ t, step start8 = .next t := ⟨_, rfl⟩
theorem witness_CursorMovesForward : start8.Inv ∧ ∃ t, step start8 = .next t := ⟨inv_start8, _, rfl⟩
theorem witness_CauseWrittenOnce : (∃ s t : State, s.Inv ∧ step s = .next t ∧ t.cause ≠ s.cause) ∧
    (∃ s : State, s.Inv ∧ s.cause ≠ .none ∧ (step s |> seen (fun t => t.cause)) = some s.cause) :=
  ⟨⟨fresh .rle8 8 1 [0x00, 0x01, 0xFF, 0xFF], _, inv_of (by decide) rfl rfl (by decide) (by decide), rfl, by decide⟩,
    ⟨{ start8 with st := .ended, cause := .eob }, inv_of (by decide) rfl rfl (by decide) (by decide), by decide, by decide⟩⟩
theorem witness_OneEmissionPerStep : start4.Inv ∧ ∃ t, step start4 = .next t := ⟨inv_start4, _, rfl⟩
theorem witness_StepKeepsPixelOrder : start8.Inv ∧ start8.InOrder ∧ ∃ t, step start8 = .next t :=
  ⟨inv_start8, ⟨rfl, by simp [start8, fresh, State.pixels]⟩, _, rfl⟩
theorem witness_PixelCountLaw : start4.Inv ∧ start4.InOrder :=
  ⟨inv_start4, ⟨rfl, by simp [start4, fresh, State.pixels]⟩⟩
theorem witness_StepKeepsRawRange : start4.rawInRange ∧ ∃ t, step start4 = .next t :=
  ⟨by simp [State.rawInRange, start4, fresh, State.pixels], _, rfl⟩
theorem witness_StepKeepsNoneOnlyAtEnd : let s : State := { start8 with st := .ended, resps := [.none] }
    s.noneOnlyAtEnd ∧ .none ∈ s.resps ∧ ∃ t, step s = .next t := ⟨fun _ => .inl rfl, by decide, _, rfl⟩
theorem witness_CallAfterTheEnd : ({ start8 with st := .ended } : State).st = .ended ∧
    ({ start8 with row := 1 } : State).row = start8.cfg.height := by decide
theorem witness_CallIsAnsweredWithinBound : start8.Inv ∧ (call start8 |> seen (fun t => t.resps)) = some [px 0 0 0x41] :=
  ⟨inv_start8, by decide⟩
/-- T22's window: its run ends at the first call. -/
theorem witness_RunEndsWithNone : (fresh .rle8 8 1 [0x00, 0x01, 0xFF, 0xFF]).Inv ∧
    (runCalls 9 (fresh .rle8 8 1 [0x00, 0x01, 0xFF, 0xFF]) |> seen (fun t => (t.runEnded, t.st))) = some (true, .ended) :=
  ⟨inv_of (by decide) rfl rfl (by decide) (by decide), by decide⟩
/-- A run at offset 0 and an absolute run at offset 2 of one window, with pixels left beyond each. -/
theorem witness_Rle8RecordConsumption : start8.Inv ∧ start8.st = .starting ∧ start8.cfg.mode = .rle8 ∧
    start8.byteAt 0 = some 2 ∧ start8.byteAt 1 = some 0x41 ∧ start8.emitted + (2 : Byte).toNat < 8 * 1 ∧
    ({ start8 with pos := 2 } : State).Inv ∧ start8.byteAt 2 = some 0 ∧ start8.byteAt 3 = some 3 ∧
    2 + 2 + (3 : Byte).toNat + (3 : Byte).toNat % 2 ≤ start8.cfg.len.toNat ∧ start8.emitted + (3 : Byte).toNat < 8 * 1 :=
  ⟨inv_start8, rfl, rfl, by decide, by decide, by decide, inv_of (by decide) rfl rfl (by decide) (by decide), by decide, by decide,
    by decide, by decide⟩
theorem witness_Rle4RecordConsumption : start4.Inv ∧ start4.st = .starting ∧ start4.cfg.mode = .rle4 ∧
    start4.byteAt 0 = some 5 ∧ start4.byteAt 1 = some 0xAB ∧ start4.emitted + (5 : Byte).toNat < 8 * 1 ∧
    ({ start4 with pos := 2 } : State).Inv ∧ start4.byteAt 2 = some 0 ∧ start4.byteAt 3 = some 5 ∧
    2 + recordLength (.rle4Abs 5) ≤ start4.cfg.len.toNat ∧ start4.emitted + (5 : Byte).toNat < 8 * 1 :=
  ⟨inv_start4, rfl, rfl, by decide, by decide, by decide, inv_of (by decide) rfl rfl (by decide) (by decide), by decide, by decide,
    by decide, by decide⟩
/-- Records that overrun an image of one row of two: the run and the absolute run are cut after two values. -/
theorem witness_Rle8RecordPrefix :
    let s := fresh .rle8 2 1 [0x04, 0x41]
    let u := fresh .rle8 2 1 [0x00, 0x03, 0x0A, 0x0B]
    (s.Inv ∧ s.byteAt 0 = some 4 ∧ s.byteAt 1 = some 0x41 ∧ 2 ≤ (4 : Byte).toNat ∧ s.emitted + 2 ≤ 2 * 1) ∧
    (u.Inv ∧ u.byteAt 0 = some 0 ∧ u.byteAt 1 = some 3 ∧ 2 ≤ (3 : Byte).toNat ∧ 0 + 2 + 2 ≤ u.cfg.len.toNat ∧
      u.emitted + 2 ≤ 2 * 1) :=
  ⟨⟨inv_of (by decide) rfl rfl (by decide) (by decide), by decide⟩, ⟨inv_of (by decide) rfl rfl (by decide) (by decide), by decide⟩⟩
theorem witness_Rle4RecordPrefix :
    let s := fresh .rle4 2 1 [0x04, 0xAB]
    let u := fresh .rle4 3 1 [0x00, 0x03, 0x12, 0x30]
    (s.Inv ∧ s.byteAt 0 = some 4 ∧ s.byteAt 1 = some 0xAB ∧ 2 ≤ (4 : Byte).toNat ∧ s.emitted + 2 ≤ 2 * 1) ∧
    (u.Inv ∧ u.byteAt 0 = some 0 ∧ u.byteAt 1 = some 3 ∧ 3 ≤ (3 : Byte).toNat ∧ 0 + 2 + (3 + 1) / 2 ≤ u.cfg.len.toNat ∧
      u.emitted + 3 ≤ 3 * 1) :=
  ⟨⟨inv_of (by decide) rfl rfl (by decide) (by decide), by decide⟩, ⟨inv_of (by decide) rfl rfl (by decide) (by decide), by decide⟩⟩
/-- A state for each clause: an opcode with and without a literal, too few bytes, an absolute emission, a quiet step. -/
theorem witness_PortReadsAreTheRules : (start8.st = .starting ∧ start8.row ≠ start8.cfg.height ∧ start8.byteAt 0 = some 2) ∧
    (({ start8 with pos := 2 } : State).byteAt 2 = some 0 ∧ start8.byteAt 3 = some 3 ∧ 2 + 3 ≤ start8.cfg.len.toNat) ∧
    start8.cfg.len.toNat < ({ start8 with pos := 7 } : State).pos.toNat + 2 ∧
    ((absolute8 2 3 1).st = .absolute ∧ (absolute8 2 3 1).remaining ≠ 0 ∧ (absolute8 2 3 1).row ≠ (absolute8 2 3 1).cfg.height) ∧
    running4.st = .running := by decide
/-- Another window that differs at the pad byte and beyond the bytes read. -/
theorem witness_StepDependsOnItsReads : ∀ a ∈ (absolute8 2 3 1).memAddrs,
    Memory.read [(3, 0x0B), (4, 1), (5, 9)] a = (absolute8 2 3 1).mem.read a := by decide
theorem witness_StepsThatReadNoByte : (∀ n, Instr.rle8Eob ≠ .rle8Abs n ∧ Instr.rle8Eob ≠ .rle4Abs n) ∧
    running4.st = .running ∧ ((absolute8 0 5 3).st = .absolute ∧ (absolute8 0 5 3).remaining = 0) := by
  exact ⟨by simp, rfl, rfl, rfl⟩
/-- Another window that differs only before the cursor and after the three bytes from it. -/
theorem witness_StepReadsAtCursorOnly : ∀ a, ({ start8 with pos := 2 } : State).pos.toNat ≤ a →
    a < ({ start8 with pos := 2 } : State).pos.toNat + 3 →
    Memory.read [(0, 9), (3, 3), (4, 0x0A), (6, 1)] a = start8.mem.read a := by
  intro a h1 h2
  have h1 : 2 ≤ a := h1
  have h2 : a < 5 := h2
  interval_cases a <;> decide
theorem witness_UnusedLowNibble : (absolute4 1 4 4).st = .absolute ∧ (absolute4 1 4 4).cfg.mode = .rle4 ∧
    (absolute4 1 4 4).remaining = 1 ∧ (absolute4 1 4 4).parity = true ∧
    (Memory.read [(4, 0x5F)] 4).toNat / 16 = ((absolute4 1 4 4).mem.read 4).toNat / 16 ∧
    Memory.read [(4, 0x5F)] 4 ≠ (absolute4 1 4 4).mem.read 4 := by decide
theorem witness_LaunchMeetsPremises : (launch ⟨2, 4, 5, 2, 2, 0, [0x04, 0xAB]⟩).isSome = true := by decide

end Sys2Proof.Tests
end

/-! SUPPORT. What an opcode can do in any state, said once by class (`exec_opcodeEffect`), and the frame of `exec` read off it. -/

namespace Sys2Proof.Machine

/-- Everything an instruction that answers a next state can have done, in any state and not only after a fetch. -/
inductive OpcodeEffect (s : State) : Instr → State → Prop
  /-- A legal end of line (R160). -/
  | eolSkip {i : Instr} : i.opClass = .eol → s.col = 0 → OpcodeEffect s i s
  /-- An end of line in mid-row (R160). -/
  | eolEnd {i : Instr} : i.opClass = .eol → s.col ≠ 0 → OpcodeEffect s i (s.raiseEnd .eolMidrow)
  /-- End of bitmap (R161). -/
  | eobEnd {i : Instr} : i.opClass = .eob → OpcodeEffect s i (s.raiseEnd .eob)
  /-- Delta (R162). -/
  | deltaEnd {i : Instr} : i.opClass = .delta → OpcodeEffect s i (s.raiseEnd .delta)
  /-- An absolute run without a literal byte (R122, R143). -/
  | absShort {i : Instr} (n : Byte) : i.opClass = .abs n → s.cfg.len.toNat < s.pos.toNat + 1 →
      OpcodeEffect s i (s.raiseEnd .truncated)
  /-- An RLE8 absolute run with literal 0 (R122). -/
  | abs8 (n : Byte) : s.pos.toNat + 1 ≤ s.cfg.len.toNat →
      OpcodeEffect s (.rle8Abs n) { (s.emit (rawOfByte (s.mem.read s.pos.toNat))).advance 1 with
        remaining := n - 1, parity := parityOf n, padding := padding8 n, st := .absolute }
  /-- An RLE4 absolute run with literal 0 (R143). -/
  | abs4 (n : Byte) : s.pos.toNat + 1 ≤ s.cfg.len.toNat →
      OpcodeEffect s (.rle4Abs n) { s.emit (rawOfNibble (highNibble (s.mem.read s.pos.toNat))) with
        remaining := n - 1, parity := parityOf n, padding := padding4 n, st := .absolute }
  /-- An RLE8 encoded run (R120). -/
  | run8 (l v : Byte) : OpcodeEffect s (.rle8Run l v) { s.emit (rawOfByte v) with
      remaining := l - 1, value := v, parity := parityOf l, st := .running }
  /-- An RLE4 encoded run (R141). -/
  | run4 (l v : Byte) : OpcodeEffect s (.rle4Run l v) { s.emit (rawOfNibble (highNibble v)) with
      remaining := l - 1, value := v, parity := parityOf l, st := .running }

/-- The end of line of both modes does one of its two effects. -/
theorem endOfLine_opcodeEffect {i : Instr} {s t : State} (hi : i.opClass = .eol) (h : endOfLine s = .next t) :
    OpcodeEffect s i t := by
  by_cases hc : s.col = 0
  · rw [endOfLine_at_start hc] at h
    cases h
    exact .eolSkip hi hc
  · rw [endOfLine_midrow hc] at h
    cases h
    exact .eolEnd hi hc

/-- Every instruction that answers a next state did one of the effects. -/
theorem exec_opcodeEffect {i : Instr} {s t : State} (h : exec i s = .next t) : OpcodeEffect s i t := by
  cases i with
  | rle8Eol | rle4Eol => exact endOfLine_opcodeEffect rfl h
  | rle8Eob | rle4Eob =>
    cases h
    exact .eobEnd rfl
  | rle8Delta | rle4Delta =>
    cases h
    exact .deltaEnd rfl
  | rle8Abs n =>
    by_cases ha : s.pos.toNat + 1 ≤ s.cfg.len.toNat
    · rw [exec_rle8Abs_avail ha] at h
      cases h
      exact .abs8 n ha
    · rw [exec_rle8Abs_empty (by omega)] at h
      cases h
      exact .absShort n rfl (by omega)
  | rle4Abs n =>
    by_cases ha : s.pos.toNat + 1 ≤ s.cfg.len.toNat
    · rw [exec_rle4Abs_avail ha] at h
      cases h
      exact .abs4 n ha
    · rw [exec_rle4Abs_empty (by omega)] at h
      cases h
      exact .absShort n rfl (by omega)
  | rle8Run l v =>
    cases h
    exact .run8 l v
  | rle4Run l v =>
    cases h
    exact .run4 l v

/-- Settles O16: a skipped end of line answers nothing, an end answers `NONE` and enters END, and every other opcode answers one
pixel; none of the effects writes configuration or window. -/
theorem execFrame : Obligations.ExecFrame := by
  intro i s t h
  cases exec_opcodeEffect h with
  | eolSkip => exact ⟨.refl s, .inl rfl, .inl rfl⟩
  | eolEnd | eobEnd | deltaEnd | absShort => exact ⟨.of_eq rfl rfl, .inr rfl, .inr ⟨.none, rfl⟩⟩
  | abs8 | abs4 | run8 | run4 => exact ⟨.of_eq rfl rfl, .inl rfl, .inr ⟨.pixel _, rfl⟩⟩

end Sys2Proof.Machine

/-! SUPPORT. The same state over another window: each operation commutes with `withMem` when the two windows agree on the bytes that
operation reads, and a step therefore does. -/

namespace Sys2Proof.Machine

/-! ## Updates and tests that read no byte -/

@[simp] theorem State.withMem_advance (s : State) (m : Memory) (n : Nat) : (s.withMem m).advance n = (s.advance n).withMem m := rfl
@[simp] theorem State.withMem_emit (s : State) (m : Memory) (raw : Word) : (s.withMem m).emit raw = (s.emit raw).withMem m := rfl
@[simp] theorem State.withMem_wantsLeft (s : State) (m : Memory) : (s.withMem m).wantsLeft = s.wantsLeft := rfl

@[simp] theorem onNext_next (f : State → State) (t : State) : onNext f (.next t) = .next (f t) := rfl

/-! ## Literals: the byte at the cursor, where the window has one -/

theorem rle8Literal_withMem {s : State} {m : Memory} {k k' : State → State}
    (hread : s.pos.toNat + 1 ≤ s.cfg.len.toNat → m.read s.pos.toNat = s.mem.read s.pos.toNat)
    (hk : ∀ t, k' (t.withMem m) = (k t).withMem m) :
    rle8Literal (s.withMem m) k' = onNext (·.withMem m) (rle8Literal s k) := by
  by_cases ha : s.pos.toNat + 1 ≤ s.cfg.len.toNat
  · rw [rle8Literal_avail ha, rle8Literal_avail (s := s.withMem m) ha]
    simp [hread ha, hk]
  · have he : s.cfg.len.toNat < s.pos.toNat + 1 := Nat.lt_of_not_le ha
    rw [rle8Literal_empty he, rle8Literal_empty (s := s.withMem m) he]
    rfl

/-- Only the high nibble of the byte matters (R144, R146). -/
theorem rle4HighLiteral_withMem {s : State} {m : Memory} {k k' : State → State}
    (hread : s.pos.toNat + 1 ≤ s.cfg.len.toNat → highNibble (m.read s.pos.toNat) = highNibble (s.mem.read s.pos.toNat))
    (hk : ∀ t, k' (t.withMem m) = (k t).withMem m) :
    rle4HighLiteral (s.withMem m) k' = onNext (·.withMem m) (rle4HighLiteral s k) := by
  by_cases ha : s.pos.toNat + 1 ≤ s.cfg.len.toNat
  · rw [rle4HighLiteral_avail ha, rle4HighLiteral_avail (s := s.withMem m) ha]
    simp [hread ha, hk]
  · have he : s.cfg.len.toNat < s.pos.toNat + 1 := Nat.lt_of_not_le ha
    rw [rle4HighLiteral_empty he, rle4HighLiteral_empty (s := s.withMem m) he]
    rfl

theorem rle4LowLiteral_withMem {s : State} {m : Memory}
    (hread : s.pos.toNat + 1 ≤ s.cfg.len.toNat → m.read s.pos.toNat = s.mem.read s.pos.toNat) :
    rle4LowLiteral (s.withMem m) = onNext (·.withMem m) (rle4LowLiteral s) := by
  by_cases ha : s.pos.toNat < s.cfg.len.toNat
  · rw [rle4LowLiteral_avail ha, rle4LowLiteral_avail (s := s.withMem m) ha]
    simp only [State.withMem_mem, State.withMem_pos, hread ha]
    rfl
  · rw [rle4LowLiteral_outside ha, rle4LowLiteral_outside (s := s.withMem m) ha]
    rfl

/-! ## Opcodes and micro-steps -/

theorem endOfLine_withMem (s : State) (m : Memory) : endOfLine (s.withMem m) = onNext (·.withMem m) (endOfLine s) := by
  by_cases hc : s.col = 0
  · rw [endOfLine_at_start hc, endOfLine_at_start (s := s.withMem m) hc]
    rfl
  · rw [endOfLine_midrow hc, endOfLine_midrow (s := s.withMem m) hc]
    rfl

/-- An opcode reads a byte only when it is an absolute run: then its literal 0, at the cursor. -/
theorem exec_withMem {i : Instr} {s : State} {m : Memory}
    (hread : ∀ n, i.opClass = .abs n → s.pos.toNat + 1 ≤ s.cfg.len.toNat → m.read s.pos.toNat = s.mem.read s.pos.toNat) :
    exec i (s.withMem m) = onNext (·.withMem m) (exec i s) := by
  cases i with
  | rle8Eol | rle4Eol => exact endOfLine_withMem s m
  | rle8Eob | rle4Eob | rle8Delta | rle4Delta | rle8Run | rle4Run => rfl
  | rle8Abs n =>
    simp only [exec, execRle8Abs]
    exact rle8Literal_withMem (hread n rfl) fun _ => rfl
  | rle4Abs n =>
    simp only [exec, execRle4Abs]
    exact rle4HighLiteral_withMem (fun ha => congrArg highNibble (hread n rfl ha)) fun _ => rfl

/-- The fetch reads the two bytes of an opcode, and then what the opcode reads. -/
theorem opcodeFetch_withMem {s : State} {m : Memory}
    (hop : s.pos.toNat + 2 ≤ s.cfg.len.toNat →
      m.read s.pos.toNat = s.mem.read s.pos.toNat ∧ m.read (s.pos.toNat + 1) = s.mem.read (s.pos.toNat + 1))
    (hlit : ∀ n, (decodeOpcode s.cfg.mode (s.mem.read s.pos.toNat) (s.mem.read (s.pos.toNat + 1))).opClass = .abs n →
      s.pos.toNat + 3 ≤ s.cfg.len.toNat → m.read (s.pos.toNat + 2) = s.mem.read (s.pos.toNat + 2)) :
    opcodeFetch (s.withMem m) = onNext (·.withMem m) (opcodeFetch s) := by
  by_cases ha : s.pos.toNat + 2 ≤ s.cfg.len.toNat
  · obtain ⟨h0, h1⟩ := hop ha
    rw [opcodeFetch_avail ha, opcodeFetch_avail (s := s.withMem m) ha]
    simp only [State.withMem_cfg, State.withMem_mem, State.withMem_pos, State.withMem_advance, h0, h1]
    refine exec_withMem fun n hn hl => ?_
    rw [advance_two_pos ha] at hl ⊢
    exact hlit n hn hl
  · have he : s.cfg.len.toNat < s.pos.toNat + 2 := Nat.lt_of_not_le ha
    rw [opcodeFetch_short he, opcodeFetch_short (s := s.withMem m) he]
    rfl

theorem runEmission_withMem (s : State) (m : Memory) :
    runEmission (s.withMem m) = onNext (·.withMem m) (runEmission s) := by
  rw [runEmission_eq, runEmission_eq]
  rfl

/-- The pad byte's value is never examined (R76). -/
theorem absEpilogue_withMem (s : State) (m : Memory) :
    absEpilogue (s.withMem m) = onNext (·.withMem m) (absEpilogue s) := by
  simp only [absEpilogue, apply_ite (onNext (·.withMem m))]
  rfl

theorem rle4AbsEmission_withMem {s : State} {m : Memory}
    (hread : s.pos.toNat + 1 ≤ s.cfg.len.toNat → m.read s.pos.toNat = s.mem.read s.pos.toNat) :
    rle4AbsEmission (s.withMem m) = onNext (·.withMem m) (rle4AbsEmission s) := by
  cases hw : s.wantsLeft
  · simp only [rle4AbsEmission, State.withMem_wantsLeft, hw, Bool.false_eq_true, if_false]
    exact rle4LowLiteral_withMem hread
  · simp only [rle4AbsEmission, State.withMem_wantsLeft, hw, if_true]
    refine rle4HighLiteral_withMem (fun ha => congrArg highNibble (hread ha)) fun t => ?_
    rw [apply_ite (State.withMem · m)]
    rfl

/-- An absolute emission reads the byte at the cursor (R123, R144). -/
theorem absEmission_withMem {s : State} {m : Memory}
    (hread : s.pos.toNat + 1 ≤ s.cfg.len.toNat → m.read s.pos.toNat = s.mem.read s.pos.toNat) :
    absEmission (s.withMem m) = onNext (·.withMem m) (absEmission s) := by
  cases hm : s.cfg.mode <;> simp only [absEmission, State.withMem_cfg, hm]
  · exact rle8Literal_withMem hread fun _ => rfl
  · exact rle4AbsEmission_withMem hread

/-! ## A step -/

/-- A call after the end reads no byte (R107, R183). -/
theorem step_withMem_after_end {s : State} (h : s.st = .ended ∨ s.row = s.cfg.height) (m : Memory) :
    step (s.withMem m) = onNext (·.withMem m) (step s) := by
  rw [step_after_end h, step_after_end (s := s.withMem m) h]
  rfl

/-- A step in RUNNING reads no byte (R104, R121, R142). -/
theorem step_withMem_running {s : State} (hst : s.st = .running) (hd : s.row ≠ s.cfg.height) (m : Memory) :
    step (s.withMem m) = onNext (·.withMem m) (step s) := by
  rw [step_running hst hd, step_running (s := s.withMem m) hst hd, State.withMem_remaining]
  split
  · rfl
  · exact runEmission_withMem s m

/-- A step in ABSOLUTE reads a byte only while literals are left: the one at the cursor. -/
theorem step_withMem_absolute {s : State} {m : Memory} (hst : s.st = .absolute) (hd : s.row ≠ s.cfg.height)
    (hread : s.remaining ≠ 0 → s.pos.toNat + 1 ≤ s.cfg.len.toNat → m.read s.pos.toNat = s.mem.read s.pos.toNat) :
    step (s.withMem m) = onNext (·.withMem m) (step s) := by
  rw [step_absolute hst hd, step_absolute (s := s.withMem m) hst hd, State.withMem_remaining]
  split
  · exact absEpilogue_withMem s m
  · next hr => exact absEmission_withMem (hread hr)

/-- Settles O49: by `st`, each step reads only an opcode and its literal 0, or one literal, all within three bytes of the cursor. -/
theorem stepReadsAtCursorOnly : Obligations.StepReadsAtCursorOnly := by
  intro s m hagree
  have h0 : m.read s.pos.toNat = s.mem.read s.pos.toNat := hagree _ (by omega) (by omega)
  have h1 : m.read (s.pos.toNat + 1) = s.mem.read (s.pos.toNat + 1) := hagree _ (by omega) (by omega)
  have h2 : m.read (s.pos.toNat + 2) = s.mem.read (s.pos.toNat + 2) := hagree _ (by omega) (by omega)
  by_cases hd : s.row = s.cfg.height
  · exact step_withMem_after_end (.inr hd) m
  · cases hst : s.st with
    | ended => exact step_withMem_after_end (.inl hst) m
    | starting =>
      rw [step_starting hst hd, step_starting (s := s.withMem m) hst hd]
      exact opcodeFetch_withMem (fun _ => ⟨h0, h1⟩) fun _ _ _ => h2
    | running => exact step_withMem_running hst hd m
    | absolute => exact step_withMem_absolute hst hd fun _ _ => h0

end Sys2Proof.Machine

/-! SUPPORT. Every step keeps the invariant of Safety.lean: one lemma per field of `State.InRange`, each read off the inversion
`step_effect` or off `step_response`. -/

namespace Sys2Proof.Machine

/-! ## The cursor, and what it may reach -/

theorem advance_one_pos {s : State} (h : s.pos.toNat + 1 ≤ s.cfg.len.toNat) : (s.advance 1).pos.toNat = s.pos.toNat + 1 :=
  State.advance_pos_toNat (by have := s.len_lt; omega)

theorem advance_three_pos {s : State} (h : s.pos.toNat + 3 ≤ s.cfg.len.toNat) :
    ((s.advance 2).advance 1).pos.toNat = s.pos.toNat + 3 := by
  have hl := s.len_lt
  have h2 : (s.advance 2).pos.toNat = s.pos.toNat + 2 := advance_two_pos (by omega)
  rw [State.advance_pos_toNat (by omega), h2]

/-- The cursor moves by at most an opcode and a literal byte, and only over bytes the window holds; true in every state. -/
theorem step_advances {s t : State} (h : step s = .next t) :
    ∃ n ≤ 3, t.pos.toNat = s.pos.toNat + n ∧ (n = 0 ∨ s.pos.toNat + n ≤ s.cfg.len.toNat) := by
  cases step_effect h with
  | afterEnd | fetchShort | runEpilogue | runEmission | absEpilogue | padShort | literalShort | literalHigh =>
    exact ⟨0, by omega, rfl, .inl rfl⟩
  | absPad _ _ _ _ ha | literal8 _ _ _ _ ha | literalLastHigh _ _ _ _ _ ha | literalLow _ _ _ _ _ ha =>
    exact ⟨1, by omega, advance_one_pos ha, .inr ha⟩
  | eolSkip _ _ ha | eolEnd _ _ ha | eobEnd _ _ ha | deltaEnd _ _ ha | run8 _ _ _ _ _ ha | run4 _ _ _ _ _ ha =>
    exact ⟨2, by omega, advance_two_pos ha, .inr ha⟩
  | absShort _ _ ha => exact ⟨2, by omega, advance_two_pos (by omega), .inr (by omega)⟩
  | abs4 _ _ _ _ ha => exact ⟨2, by omega, advance_two_pos (by omega), .inr (by omega)⟩
  | abs8 _ _ _ _ ha => exact ⟨3, by omega, advance_three_pos ha, .inr ha⟩

theorem step_pos_le_len {s t : State} (hi : s.InRange) (h : step s = .next t) : t.pos.toNat ≤ t.cfg.len.toNat := by
  obtain ⟨n, -, hp, hn⟩ := step_advances h
  have := hi.pos
  rw [(step_response h).1]
  omega

/-! ## Configuration, window and counters -/

theorem step_keeps_launched {s t : State} (hi : s.Launched) (h : step s = .next t) : t.Launched := by
  obtain ⟨hcfg, hmem, -⟩ := step_response h
  exact hi.of_eq hcfg hmem

theorem step_counters_inRange {s t : State} (hi : s.Inv) (h : step s = .next t) :
    t.col.toNat < t.cfg.width.toNat ∧ t.row.toNat ≤ t.cfg.height.toNat ∧ (t.row = t.cfg.height → t.col = 0) := by
  obtain ⟨hcfg, -, ⟨-, hcol, hrow, -⟩ | ⟨-, hcol, hrow, -⟩ | ⟨raw, he, hd, -⟩⟩ := step_response h
  · rw [hcfg, hcol, hrow]
    exact ⟨hi.inRange.col, hi.inRange.row, hi.inRange.colWhenDone⟩
  · rw [hcfg, hcol, hrow]
    exact ⟨hi.inRange.col, hi.inRange.row, hi.inRange.colWhenDone⟩
  · exact he.counters_inRange hi hd hcfg

/-! ## `cause` -/

/-- Before the end and still before it, `cause` stands at NONE (R30). -/
theorem State.InRange.cause_iff_of_open {s t : State} (hi : s.InRange) (hs : s.st ≠ .ended) (ht : t.st ≠ .ended)
    (hc : t.cause = s.cause) : t.st = .ended ↔ t.cause ≠ .none :=
  iff_of_false ht fun h => h (hc.trans (hi.cause_none hs))

theorem step_cause_iff {s t : State} (hi : s.InRange) (h : step s = .next t) : t.st = .ended ↔ t.cause ≠ .none := by
  cases step_effect h with
  | afterEnd => exact hi.cause
  | fetchShort | eolEnd | eobEnd | deltaEnd | absShort | padShort | literalShort => exact iff_of_true rfl (by simp)
  | eolSkip _ hst | runEmission _ hst | literal8 _ hst | literalHigh _ hst | literalLastHigh _ hst | literalLow _ hst =>
    exact hi.cause_iff_of_open (by simp [hst]) (by simp [hst]) rfl
  | abs8 _ _ hst | abs4 _ _ hst | run8 _ _ _ hst | run4 _ _ _ hst | runEpilogue _ hst | absEpilogue _ hst | absPad _ hst =>
    exact hi.cause_iff_of_open (by simp [hst]) (by simp) rfl

/-! ## `remaining` and the selector -/

/-- One less than a count that is not 0 is at most 254 (R22). -/
theorem byte_pred_le {b : Byte} (h : 1 ≤ b.toNat) : (b - 1).toNat ≤ 254 := by
  have := b.isLt
  rw [byte_pred_toNat h]
  omega

theorem step_remaining_le {s t : State} (hi : s.InRange) (h : step s = .next t) :
    t.st = .running ∨ t.st = .absolute → t.remaining.toNat ≤ 254 := by
  cases step_effect h with
  | afterEnd => exact hi.remaining
  | fetchShort | eolEnd | eobEnd | deltaEnd | absShort | padShort | literalShort => simp
  | eolSkip _ hst => simp [hst]
  | runEpilogue | absEpilogue | absPad => simp
  | abs8 n _ _ _ _ _ _ hn | abs4 n _ _ _ _ _ _ hn => exact fun _ => byte_pred_le (by omega)
  | run8 l v _ _ _ _ _ _ hl | run4 l v _ _ _ _ _ _ hl => exact fun _ => byte_pred_le hl
  | runEmission _ _ hr | literal8 _ _ hr | literalHigh _ _ hr | literalLow _ _ hr =>
    exact fun _ => byte_pred_le (byte_ne_zero.mp hr)
  | literalLastHigh _ _ hr => exact fun _ => byte_pred_le (by rw [hr]; decide)

/-- After the first value of a run of two or more the low nibble is next (R147). -/
theorem wantLeft_after_first {n : Nat} (h : 2 ≤ n) : wantLeft (n - 1) (odd n) = false := by
  rw [wantLeft_eq_false, odd_eq_true]
  omega

/-- Taking a value of a run flips the selector while values are left (R147). -/
theorem State.wantsLeft_pred {s t : State} (hp : t.parity = s.parity) (hr : t.remaining = s.remaining - 1)
    (h : 2 ≤ s.remaining.toNat) : t.wantsLeft = !s.wantsLeft := by
  rw [State.wantsLeft, hp, hr, byte_pred_toNat (by omega), wantLeft_pred h, State.wantsLeft]

theorem byte_two_le {b : Byte} (h0 : b ≠ 0) (h1 : b ≠ 1) : 2 ≤ b.toNat := by
  have := byte_ne_zero.mp h0
  have : b.toNat ≠ 1 := fun h => h1 (BitVec.eq_of_toNat_eq h)
  omega

theorem State.wantsLeft_after_first {t : State} {n : Byte} (hp : t.parity = parityOf n) (hr : t.remaining = n - 1)
    (h : 3 ≤ n.toNat) : t.wantsLeft = false := by
  rw [State.wantsLeft, hp, hr, byte_pred_toNat (by omega)]
  exact wantLeft_after_first (by omega)

/-- A low nibble is next only with its byte at the cursor: the step before took the high nibble and left the byte (R34). -/
theorem step_lowNibble {s t : State} (hi : s.InRange) (h : step s = .next t) :
    t.st = .absolute → t.cfg.mode = .rle4 → t.remaining ≠ 0 → t.wantsLeft = false → t.pos.toNat < t.cfg.len.toNat := by
  cases step_effect h with
  | afterEnd => exact hi.lowNibble
  | fetchShort | eolEnd | eobEnd | deltaEnd | absShort | padShort | literalShort => simp
  | eolSkip _ hst | runEmission _ hst => simp [hst]
  | run8 | run4 | runEpilogue | absEpilogue | absPad => simp
  | abs8 _ _ _ hm | literal8 _ _ _ hm => simp [hm]
  | abs4 _ _ _ _ ha =>
    intro _ _ _ _
    have : (s.advance 2).pos.toNat = s.pos.toNat + 2 := advance_two_pos (by omega)
    show (s.advance 2).pos.toNat < s.cfg.len.toNat
    omega
  | literalHigh _ _ _ _ _ _ ha => exact fun _ _ _ _ => ha
  | literalLastHigh _ _ hr => simp [hr]
  | literalLow _ _ hr _ hw =>
    intro _ _ hr' hw'
    have h1 : s.remaining ≠ 1 := fun h1 => hr' (by simp [h1])
    have hflip : false = !s.wantsLeft := hw'.symm.trans (State.wantsLeft_pred rfl rfl (byte_two_le hr h1))
    rw [hw] at hflip
    cases hflip

/-! ## Alignment: the literal bytes left, and the end of the record -/

theorem State.literalBytesLeft_rle8 {s : State} (hm : s.cfg.mode = .rle8) : s.literalBytesLeft = s.remaining.toNat := by
  simp only [State.literalBytesLeft, hm]

theorem State.literalBytesLeft_none {s : State} (hr : s.remaining = 0) : s.literalBytesLeft = 0 := by
  cases hm : s.cfg.mode <;> simp [State.literalBytesLeft, hm, hr]

/-- The two branches of R144 in one: a pending low nibble stands for one nibble more. -/
theorem State.literalBytesLeft_rle4 {s : State} (hm : s.cfg.mode = .rle4) (hr : s.remaining ≠ 0) :
    s.literalBytesLeft = (s.remaining.toNat + 1 + (!s.wantsLeft).toNat) / 2 := by
  have := byte_ne_zero.mp hr
  cases hw : s.wantsLeft with
  | true => simp only [State.literalBytesLeft, hm, if_neg hr, hw, if_true, ceilHalf, Bool.not_true, Bool.toNat_false, Nat.add_zero]
  | false =>
    simp only [State.literalBytesLeft, hm, if_neg hr, hw, Bool.false_eq_true, if_false, ceilHalf, Bool.not_false, Bool.toNat_true]
    omega

/-- Taking a literal together with its byte: every RLE8 literal, and in RLE4 a low nibble or the last literal. -/
theorem State.literalBytesLeft_byte_taken {s t : State} (hc : t.cfg = s.cfg) (hp : t.parity = s.parity)
    (hr : t.remaining = s.remaining - 1) (h0 : s.remaining ≠ 0)
    (hlow : s.cfg.mode = .rle4 → s.remaining = 1 ∨ s.wantsLeft = false) : t.literalBytesLeft + 1 = s.literalBytesLeft := by
  have hk := byte_ne_zero.mp h0
  have hpred := byte_pred_toNat hk
  cases hm : s.cfg.mode with
  | rle8 =>
    rw [State.literalBytesLeft_rle8 hm, State.literalBytesLeft_rle8 (hc ▸ hm), hr, hpred]
    omega
  | rle4 =>
    rw [State.literalBytesLeft_rle4 hm h0]
    by_cases h1 : s.remaining = 1
    · have hb : (!s.wantsLeft).toNat ≤ 1 := Bool.toNat_le _
      rw [State.literalBytesLeft_none (s := t) (by rw [hr, h1]; rfl), h1]
      simp only [BitVec.ofNat_eq_ofNat, BitVec.toNat_ofNat]
      omega
    · have h2 := byte_two_le h0 h1
      have hw : s.wantsLeft = false := (hlow hm).resolve_left h1
      have hr' : t.remaining ≠ 0 := byte_ne_zero.mpr (by rw [hr, hpred]; omega)
      rw [State.literalBytesLeft_rle4 (hc ▸ hm) hr', State.wantsLeft_pred hp hr h2, hw, hr, hpred]
      simp only [Bool.not_false, Bool.not_true, Bool.toNat_true, Bool.toNat_false]
      omega

/-- Taking a high nibble that is not the last literal leaves its byte for the low nibble. -/
theorem State.literalBytesLeft_high_taken {s t : State} (hc : t.cfg = s.cfg) (hp : t.parity = s.parity)
    (hr : t.remaining = s.remaining - 1) (h2 : 2 ≤ s.remaining.toNat) (hm : s.cfg.mode = .rle4) (hw : s.wantsLeft = true) :
    t.literalBytesLeft = s.literalBytesLeft := by
  have hpred : (s.remaining - 1).toNat = s.remaining.toNat - 1 := byte_pred_toNat (by omega)
  have hr' : t.remaining ≠ 0 := byte_ne_zero.mpr (by rw [hr, hpred]; omega)
  rw [State.literalBytesLeft_rle4 hm (byte_ne_zero.mpr (by omega)), State.literalBytesLeft_rle4 (hc ▸ hm) hr',
    State.wantsLeft_pred hp hr h2, hw, hr, hpred]
  simp only [Bool.not_false, Bool.not_true, Bool.toNat_true, Bool.toNat_false]
  omega

theorem State.aligned_of_even {s : State} (hst : s.st = .starting ∨ s.st = .running) (hp : s.pos.toNat % 2 = 0) :
    s.aligned = true := by
  rcases hst with h | h <;> simp only [State.aligned, h, hp, decide_true]

theorem State.InRange.pos_even {s : State} (hi : s.InRange) (hst : s.st = .starting ∨ s.st = .running) : s.pos.toNat % 2 = 0 := by
  have ha := hi.aligned
  rcases hst with h | h <;> simpa only [State.aligned, h, decide_eq_true_eq] using ha

theorem State.aligned_absolute {s : State} (hst : s.st = .absolute) :
    s.aligned = true ↔ (s.pos.toNat + s.literalBytesLeft + s.padding.toNat) % 2 = 0 := by
  simp only [State.aligned, hst, decide_eq_true_eq]

theorem State.aligned_ended {s : State} (hst : s.st = .ended) : s.aligned = true := by
  simp only [State.aligned, hst]

theorem odd_toNat (k : Nat) : (odd k).toNat = k % 2 := oddCount_eq k

/-- The opening of an RLE8 absolute run, one literal byte after an even opcode (R122). -/
theorem State.aligned_of_opening8 {t : State} {n : Byte} (hst : t.st = .absolute) (hm : t.cfg.mode = .rle8)
    (hr : t.remaining = n - 1) (hpad : t.padding = padding8 n) (hn : 3 ≤ n.toNat) (hp : t.pos.toNat % 2 = 1) :
    t.aligned = true := by
  rw [State.aligned_absolute hst, State.literalBytesLeft_rle8 hm, hr, byte_pred_toNat (by omega), hpad, padding8, odd_toNat]
  omega

/-- The opening of an RLE4 absolute run, the cursor still on the first literal byte (R143). -/
theorem State.aligned_of_opening4 {t : State} {n : Byte} (hst : t.st = .absolute) (hm : t.cfg.mode = .rle4)
    (hr : t.remaining = n - 1) (hpar : t.parity = parityOf n) (hpad : t.padding = padding4 n) (hn : 3 ≤ n.toNat)
    (hp : t.pos.toNat % 2 = 0) : t.aligned = true := by
  have hpred : (n - 1).toNat = n.toNat - 1 := byte_pred_toNat (by omega)
  have hr' : t.remaining ≠ 0 := byte_ne_zero.mpr (by rw [hr, hpred]; omega)
  rw [State.aligned_absolute hst, State.literalBytesLeft_rle4 hm hr', State.wantsLeft_after_first hpar hr hn, hr, hpred, hpad,
    padding4, odd_toNat, ceilHalf]
  simp only [Bool.not_false, Bool.toNat_true]
  omega

/-- A literal keeps the end of the record where it is, and so the alignment. -/
theorem State.aligned_of_literal {s t : State} (ha : s.aligned = true) (hs : s.st = .absolute) (hst : t.st = s.st)
    (hpad : t.padding = s.padding) (hend : t.pos.toNat + t.literalBytesLeft = s.pos.toNat + s.literalBytesLeft) :
    t.aligned = true := by
  rw [State.aligned_absolute hs] at ha
  rw [State.aligned_absolute (hst.trans hs), hpad, hend]
  exact ha

/-- A literal that takes its byte. -/
theorem State.aligned_of_byte_taken {s t : State} (ha : s.aligned = true) (hs : s.st = .absolute) (hst : t.st = s.st)
    (hpad : t.padding = s.padding) (hp : t.pos.toNat = s.pos.toNat + 1)
    (hb : t.literalBytesLeft + 1 = s.literalBytesLeft) : t.aligned = true :=
  State.aligned_of_literal ha hs hst hpad (by omega)

/-- Every step keeps the cursor a whole number of byte pairs from the end of the record (R110). -/
theorem step_aligned {s t : State} (hi : s.InRange) (h : step s = .next t) : t.aligned = true := by
  have ha := hi.aligned
  cases step_effect h with
  | afterEnd => exact ha
  | fetchShort | eolEnd | eobEnd | deltaEnd | absShort | padShort | literalShort => exact State.aligned_ended rfl
  | eolSkip _ hst hp =>
    have := hi.pos_even (.inl hst)
    exact State.aligned_of_even (.inl hst) (by rw [advance_two_pos hp]; omega)
  | run8 _ _ _ hst _ hp | run4 _ _ _ hst _ hp =>
    have he := hi.pos_even (.inl hst)
    have h2 := advance_two_pos hp
    exact State.aligned_of_even (.inr rfl) (show (s.advance 2).pos.toNat % 2 = 0 by omega)
  | runEpilogue _ hst => exact State.aligned_of_even (.inl rfl) (hi.pos_even (.inr hst))
  | runEmission _ hst => exact State.aligned_of_even (.inr hst) (hi.pos_even (.inr hst))
  | absEpilogue _ hst hr hpad =>
    rw [State.aligned_absolute hst, State.literalBytesLeft_none hr, hpad] at ha
    exact State.aligned_of_even (.inl rfl) ha
  | absPad _ hst hr hpad hp =>
    rw [State.aligned_absolute hst, State.literalBytesLeft_none hr, hpad] at ha
    exact State.aligned_of_even (.inl rfl) (advance_one_pos hp ▸ ha)
  | abs8 _ _ hst hm hp _ _ hn =>
    have he := hi.pos_even (.inl hst)
    have h3 := advance_three_pos hp
    exact State.aligned_of_opening8 rfl hm rfl rfl hn (show ((s.advance 2).advance 1).pos.toNat % 2 = 1 by omega)
  | abs4 _ _ hst hm hp _ _ hn =>
    have he := hi.pos_even (.inl hst)
    have h2 : (s.advance 2).pos.toNat = s.pos.toNat + 2 := advance_two_pos (by omega)
    exact State.aligned_of_opening4 rfl hm rfl rfl rfl hn (show (s.advance 2).pos.toNat % 2 = 0 by omega)
  | literal8 _ hst hr hm hp =>
    refine State.aligned_of_byte_taken ha hst rfl rfl (advance_one_pos hp) ?_
    exact State.literalBytesLeft_byte_taken rfl rfl rfl hr fun hm' => absurd (hm.symm.trans hm') (by decide)
  | literalHigh _ hst hr h1 hm hw =>
    refine State.aligned_of_literal ha hst rfl rfl (congrArg (s.pos.toNat + ·) ?_)
    exact State.literalBytesLeft_high_taken rfl rfl rfl (byte_two_le hr h1) hm hw
  | literalLastHigh _ hst h1 hm hw hp =>
    refine State.aligned_of_byte_taken ha hst rfl rfl (advance_one_pos hp) ?_
    exact State.literalBytesLeft_byte_taken rfl rfl rfl (by rw [h1]; decide) fun _ => .inl h1
  | literalLow _ hst hr hm hw hp =>
    refine State.aligned_of_byte_taken ha hst rfl rfl (advance_one_pos hp) ?_
    exact State.literalBytesLeft_byte_taken rfl rfl rfl hr fun _ => .inr hw

/-- Settles O32: each field of the invariant is kept by its own lemma above. -/
theorem stepKeepsInvariant : Obligations.StepKeepsInvariant := by
  intro s t hi h
  obtain ⟨hcol, hrow, hdone⟩ := step_counters_inRange hi h
  exact ⟨step_keeps_launched hi.launched h,
    { pos := step_pos_le_len hi.inRange h
      col := hcol
      row := hrow
      colWhenDone := hdone
      remaining := step_remaining_le hi.inRange h
      lowNibble := step_lowNibble hi.inRange h
      aligned := step_aligned hi.inRange h
      cause := step_cause_iff hi.inRange h }⟩

end Sys2Proof.Machine

/-! SUPPORT. The invariant along a run: it holds at reset, a step from it answers a next state, and every run keeps it. What it says of the
cursor and of `cause` is read off the state before and the state after a step. -/

namespace Sys2Proof.Machine

/-! ## At reset -/

theorem inv_resetWith {c : Config} {m : Memory} (hc : c.Legal) (hw : m.wf = true) (hm : m.within c.len.toNat = true) :
    (State.resetWith c m).Inv := by
  have ⟨hwidth, _, hheight, _⟩ := hc
  have hrow : (0 : Word) ≠ c.height := fun h => by
    rw [← h] at hheight
    exact absurd hheight (by decide)
  exact ⟨⟨hc, hw, hm⟩,
    { pos := Nat.zero_le _
      col := hwidth
      row := Nat.zero_le _
      colWhenDone := fun h => absurd h hrow
      remaining := by simp
      lowNibble := by simp
      aligned := rfl
      cause := by simp }⟩

/-- Settles O31: at reset the counters and the cursor are 0, below every legal bound. -/
theorem resetMeetsInvariant : Obligations.ResetMeetsInvariant :=
  ⟨fun _ _ => inv_resetWith, inv_resetWith (by decide) rfl rfl⟩

/-- Settles O1: reset writes the values out, and in END a step is a call after the end. -/
theorem resetLeavesSpecValues : Obligations.ResetLeavesSpecValues :=
  ⟨fun _ _ => ⟨rfl, rfl, rfl, rfl, rfl, rfl, rfl, rfl, rfl, rfl, rfl, rfl⟩,
    fun s h => ⟨s.respond .none, step_after_end (.inl h), h⟩⟩

/-! ## A step from the invariant answers a next state -/

theorem rle8Literal_answers (s : State) (k : State → State) : ∃ t, rle8Literal s k = .next t := by
  by_cases ha : s.pos.toNat + 1 ≤ s.cfg.len.toNat
  · exact ⟨_, rle8Literal_avail ha k⟩
  · exact ⟨_, rle8Literal_empty (by omega) k⟩

theorem rle4HighLiteral_answers (s : State) (k : State → State) : ∃ t, rle4HighLiteral s k = .next t := by
  by_cases ha : s.pos.toNat + 1 ≤ s.cfg.len.toNat
  · exact ⟨_, rle4HighLiteral_avail ha k⟩
  · exact ⟨_, rle4HighLiteral_empty (by omega) k⟩

/-- No opcode faults: the only bytes an opcode reads are checked first. -/
theorem exec_answers (i : Instr) (s : State) : ∃ t, exec i s = .next t := by
  cases i with
  | rle8Abs =>
    simp only [exec, execRle8Abs]
    exact rle8Literal_answers s _
  | rle4Abs =>
    simp only [exec, execRle4Abs]
    exact rle4HighLiteral_answers s _
  | rle8Eol | rle8Eob | rle8Delta | rle8Run | rle4Eol | rle4Eob | rle4Delta | rle4Run => exact ⟨_, rfl⟩

theorem opcodeFetch_answers (s : State) : ∃ t, opcodeFetch s = .next t := by
  by_cases ha : s.pos.toNat + 2 ≤ s.cfg.len.toNat
  · rw [opcodeFetch_avail ha]
    exact exec_answers _ _
  · exact ⟨_, opcodeFetch_short (by omega)⟩

theorem absEpilogue_answers (s : State) : ∃ t, absEpilogue s = .next t := by
  rw [absEpilogue]
  split
  · split <;> exact ⟨_, rfl⟩
  · exact ⟨_, rfl⟩

/-- The one unchecked read, of a low nibble's byte, is inside the window by R34. -/
theorem absEmission_answers {s : State} (hi : s.InRange) (hst : s.st = .absolute) (hr : s.remaining ≠ 0) :
    ∃ t, absEmission s = .next t := by
  cases hm : s.cfg.mode with
  | rle8 =>
    simp only [absEmission, hm]
    exact rle8Literal_answers s _
  | rle4 =>
    simp only [absEmission, hm, rle4AbsEmission]
    cases hw : s.wantsLeft with
    | true =>
      rw [if_pos rfl]
      exact rle4HighLiteral_answers s _
    | false =>
      rw [if_neg (by decide)]
      exact ⟨_, rle4LowLiteral_avail (hi.lowNibble hst hm hr hw)⟩

theorem step_answers {s : State} (hi : s.Inv) : ∃ t, step s = .next t := by
  by_cases hend : s.st = .ended ∨ s.row = s.cfg.height
  · exact ⟨_, step_after_end hend⟩
  · obtain ⟨he, hd⟩ := not_or.mp hend
    cases hst : s.st with
    | ended => exact absurd hst he
    | starting =>
      rw [step_starting hst hd]
      exact opcodeFetch_answers s
    | running =>
      rw [step_running hst hd, runEmission_eq]
      split <;> exact ⟨_, rfl⟩
    | absolute =>
      rw [step_absolute hst hd]
      split
      · exact absEpilogue_answers s
      · next hr => exact absEmission_answers hi.inRange hst hr

/-! ## Runs -/

/-- A run from the invariant of any number of steps stops nowhere and ends in the invariant. -/
theorem runSteps_inv (k : Nat) : ∀ {s : State}, s.Inv → ∃ t, runSteps k s = .next t ∧ t.Inv := by
  induction k with
  | zero => exact fun hi => ⟨_, rfl, hi⟩
  | succ k ih =>
    intro s hi
    obtain ⟨u, hu⟩ := step_answers hi
    rw [runSteps_succ hu]
    exact ih (stepKeepsInvariant s u hi hu)

/-- Settles O34: every run from reset keeps the invariant, whose alignment in STARTING is R110. -/
theorem opcodesAtEvenOffsets : Obligations.OpcodesAtEvenOffsets := by
  intro c m k hc hw hm
  obtain ⟨t, ht, hi⟩ := runSteps_inv k (inv_resetWith hc hw hm)
  exact ⟨t, ht, hi, fun hst => hi.inRange.pos_even (.inl hst)⟩

/-! ## What a step keeps -/

/-- Settles O35: whatever a step answers, configuration and window stand, and so does every read. -/
theorem windowNeverChanges : Obligations.WindowNeverChanges := by
  intro s t h
  obtain ⟨hcfg, hmem, -⟩ := step_response h
  exact .of_eq hcfg hmem

/-- Settles O36: the cursor advances by `n ≤ 3` bytes, and only over bytes of the window. -/
theorem cursorMovesForward : Obligations.CursorMovesForward := by
  intro s t hi h
  obtain ⟨n, hn, hp, -⟩ := step_advances h
  exact ⟨by omega, by omega, step_pos_le_len hi.inRange h⟩

/-- In END nothing but the response record changes. -/
theorem step_cause_of_ended {s t : State} (hst : s.st = .ended) (h : step s = .next t) : t.cause = s.cause := by
  rw [step_after_end (.inl hst)] at h
  cases h
  rfl

/-- Settles O37: `cause` is NONE exactly outside END, before the step and after it, and END keeps it. -/
theorem causeWrittenOnce : Obligations.CauseWrittenOnce := by
  intro s t hi h
  refine ⟨hi.inRange.cause_none, fun hne => ?_, fun hc => step_cause_of_ended (hi.inRange.cause.mpr hc) h⟩
  have hs : s.st ≠ .ended := fun hst => hne (step_cause_of_ended hst h)
  refine ⟨hs, (step_cause_iff hi.inRange h).mpr fun ht => hne ?_⟩
  rw [ht, hi.inRange.cause_none hs]

end Sys2Proof.Machine

/-! SUPPORT. The offsets a step puts on `mem_addr`, by the state it starts in, and the step's dependence on the window through them. -/

namespace Sys2Proof.Machine

/-! ## The offsets by state -/

theorem State.memAddrs_after_end {s : State} (h : s.st = .ended ∨ s.row = s.cfg.height) : s.memAddrs = [] := by
  rw [State.memAddrs, State.portReads_after_end h]
  rfl

theorem State.memAddrs_eq {s : State} (he : s.st ≠ .ended) (hd : s.row ≠ s.cfg.height) :
    s.memAddrs = (microReads s).map fun r => r.memAddr.toNat := by
  rw [State.memAddrs, State.portReads_eq_microReads he hd]

/-- Run emissions and the run epilogue read nothing, with `done` or without (R104, R121, R142). -/
theorem State.memAddrs_running {s : State} (hst : s.st = .running) : s.memAddrs = [] := by
  by_cases hd : s.row = s.cfg.height
  · exact State.memAddrs_after_end (.inr hd)
  · rw [State.memAddrs_eq (by simp [hst]) hd]
    simp only [microReads, hst, List.map_nil]

/-- The absolute epilogue reads no pad byte (log 17). -/
theorem State.memAddrs_absEpilogue {s : State} (hst : s.st = .absolute) (hr : s.remaining = 0) : s.memAddrs = [] := by
  by_cases hd : s.row = s.cfg.height
  · exact State.memAddrs_after_end (.inr hd)
  · rw [State.memAddrs_eq (by simp [hst]) hd]
    simp only [microReads, hst, hr, if_true, List.map_nil]

theorem State.memAddrs_absEmission {s : State} (hst : s.st = .absolute) (hr : s.remaining ≠ 0) (hd : s.row ≠ s.cfg.height) :
    s.memAddrs = if s.pos.toNat + 1 ≤ s.cfg.len.toNat then [s.pos.toNat] else [] := by
  rw [State.memAddrs_eq (by simp [hst]) hd]
  simp only [microReads, hst, if_neg hr]
  exact State.readAt_addrs s _

theorem State.memAddrs_fetch_short {s : State} (hst : s.st = .starting) (h : s.cfg.len.toNat < s.pos.toNat + 2) :
    s.memAddrs = [] := by
  by_cases hd : s.row = s.cfg.height
  · exact State.memAddrs_after_end (.inr hd)
  · rw [State.memAddrs_eq (by simp [hst]) hd]
    simp only [microReads, hst, fetchReads_short h, List.map_nil]

/-- The opcodes of class ABS are `(0, N)` with `N ≥ 3` (R72, R73). -/
theorem decodeOpcode_eq_abs {m : Mode} {b0 b1 n : Byte} :
    (decodeOpcode m b0 b1).opClass = .abs n ↔ b0 = 0 ∧ 3 ≤ b1.toNat ∧ b1 = n := by
  rw [decodeOpcode, instrOf_opClass]
  constructor
  · intro h
    rcases classify_cases b0 b1 with ⟨-, -, hc⟩ | ⟨-, -, hc⟩ | ⟨-, -, hc⟩ | ⟨h0, h1, hc⟩ | ⟨-, hc⟩ <;> rw [hc] at h <;> cases h
    exact ⟨h0, h1, rfl⟩
  · rintro ⟨rfl, h3, rfl⟩
    refine classify_abs ?_ ?_ ?_ <;> rintro rfl <;> exact absurd h3 (by decide)

theorem opcodeReads_of_abs {i : Instr} {n : Byte} (h : i.opClass = .abs n) (s : State) :
    opcodeReads i s = s.readAt s.pos.toNat := by
  cases i with
  | rle8Abs | rle4Abs => rfl
  | _ => cases h

theorem opcodeReads_of_not_abs {i : Instr} (h : ∀ n, i.opClass ≠ .abs n) (s : State) : opcodeReads i s = [] := by
  cases i with
  | rle8Abs n | rle4Abs n => exact absurd rfl (h n)
  | _ => rfl

/-- A fetch with its two bytes in the window reads them, and then literal 0 of an absolute run that has one (R102, R122, R143). -/
theorem State.memAddrs_fetch {s : State} {b0 b1 : Byte} (hst : s.st = .starting) (hd : s.row ≠ s.cfg.height)
    (h0 : s.byteAt s.pos.toNat = some b0) (h1 : s.byteAt (s.pos.toNat + 1) = some b1) :
    s.memAddrs = [s.pos.toNat, s.pos.toNat + 1] ++
      if b0 = 0 ∧ 3 ≤ b1.toNat ∧ s.pos.toNat + 3 ≤ s.cfg.len.toNat then [s.pos.toNat + 2] else [] := by
  obtain ⟨ha0, -⟩ := State.byteAt_eq_some.mp h0
  obtain ⟨ha1, -⟩ := State.byteAt_eq_some.mp h1
  have hlit : (opcodeReads (decodeOpcode s.cfg.mode b0 b1) (s.advance 2)).map (fun r => r.memAddr.toNat) =
      if b0 = 0 ∧ 3 ≤ b1.toNat ∧ s.pos.toNat + 3 ≤ s.cfg.len.toNat then [s.pos.toNat + 2] else [] := by
    by_cases hop : b0 = 0 ∧ 3 ≤ b1.toNat
    · rw [opcodeReads_of_abs (decodeOpcode_eq_abs.mpr ⟨hop.1, hop.2, rfl⟩), State.readAt_addrs, advance_two_pos ha1]
      exact if_congr ⟨fun h => ⟨hop.1, hop.2, h⟩, fun h => h.2.2⟩ rfl rfl
    · rw [opcodeReads_of_not_abs, if_neg fun h => hop ⟨h.1, h.2.1⟩]
      · rfl
      · intro n hn
        obtain ⟨e0, e1, -⟩ := decodeOpcode_eq_abs.mp hn
        exact hop ⟨e0, e1⟩
  rw [State.memAddrs_eq (by simp [hst]) hd]
  simp only [microReads, hst]
  rw [fetchReads_bytes h0 h1, List.map_append, List.map_append, State.readAt_addrs, State.readAt_addrs, if_pos ha0, if_pos ha1, hlit]
  rfl

/-! ## Each use of the port -/

@[simp] theorem State.advance_readAt (s : State) (n a : Nat) : (s.advance n).readAt a = s.readAt a := rfl

/-- Every use of the port is a use by some `M[a]`. -/
theorem State.portReads_of_readAt {s : State} {r : PortRead} (h : r ∈ s.portReads) : ∃ a, r ∈ s.readAt a := by
  by_cases hend : s.st = .ended ∨ s.row = s.cfg.height
  · rw [State.portReads_after_end hend] at h
    cases h
  · obtain ⟨he, hd⟩ := not_or.mp hend
    rw [State.portReads_eq_microReads he hd, microReads] at h
    split at h
    · rw [fetchReads] at h
      split at h
      · rw [List.mem_append, List.mem_append] at h
        rcases h with (h | h) | h
        · exact ⟨_, h⟩
        · exact ⟨_, h⟩
        · exact ⟨_, State.advance_readAt s 2 _ ▸ opcodeReads_subset h⟩
      · cases h
    · cases h
    · split at h
      · cases h
      · exact ⟨_, h⟩
    · cases h

/-- Settles O55: each use is sound, and the offsets stand in the lemmas by state. -/
theorem portReadsAreTheRules : Obligations.PortReadsAreTheRules := by
  intro s
  refine ⟨fun r hr => ?_, ?_, fun hst hd => ⟨State.memAddrs_fetch_short hst, fun b0 b1 h0 h1 => ⟨fun e0 e1 ha => ?_, fun hno => ?_⟩⟩,
    State.memAddrs_absEmission⟩
  · obtain ⟨a, ha⟩ := State.portReads_of_readAt hr
    exact State.readAt_sound ha
  · rintro (he | hd | hst | ⟨hst, hr⟩)
    · exact State.memAddrs_after_end (.inl he)
    · exact State.memAddrs_after_end (.inr hd)
    · exact State.memAddrs_running hst
    · exact State.memAddrs_absEpilogue hst hr
  · rw [State.memAddrs_fetch hst hd h0 h1, if_pos ⟨e0, e1, ha⟩]
    rfl
  · rw [State.memAddrs_fetch hst hd h0 h1, if_neg, List.append_nil]
    rintro ⟨e0, e1, ha⟩
    rcases hno with h | h | h
    · exact h e0
    · omega
    · omega

/-! ## The window matters at those offsets only -/

/-- A fetch over a window that agrees at the fetch's offsets. -/
theorem fetch_depends_on_reads {s : State} {m : Memory} (hst : s.st = .starting) (hd : s.row ≠ s.cfg.height)
    (ha : s.pos.toNat + 2 ≤ s.cfg.len.toNat) (hagree : ∀ a ∈ s.memAddrs, m.read a = s.mem.read a) :
    (s.withMem m).memAddrs = s.memAddrs ∧ step (s.withMem m) = onNext (·.withMem m) (step s) := by
  have hb0 : s.byteAt s.pos.toNat = some (s.mem.read s.pos.toNat) := State.byteAt_of_lt (by omega)
  have hb1 : s.byteAt (s.pos.toNat + 1) = some (s.mem.read (s.pos.toNat + 1)) := State.byteAt_of_lt (by omega)
  have haddrs := State.memAddrs_fetch hst hd hb0 hb1
  have h0 : m.read s.pos.toNat = s.mem.read s.pos.toNat := hagree _ (by simp [haddrs])
  have h1 : m.read (s.pos.toNat + 1) = s.mem.read (s.pos.toNat + 1) := hagree _ (by simp [haddrs])
  constructor
  · have hb0' : (s.withMem m).byteAt (s.withMem m).pos.toNat = some (s.mem.read s.pos.toNat) :=
      State.byteAt_eq_some.mpr ⟨by rw [State.withMem_pos, State.withMem_cfg]; omega, h0⟩
    have hb1' : (s.withMem m).byteAt ((s.withMem m).pos.toNat + 1) = some (s.mem.read (s.pos.toNat + 1)) :=
      State.byteAt_eq_some.mpr ⟨by rw [State.withMem_pos, State.withMem_cfg]; omega, h1⟩
    rw [haddrs, State.memAddrs_fetch (s := s.withMem m) hst hd hb0' hb1']
    rfl
  · rw [step_starting hst hd, step_starting (s := s.withMem m) hst hd]
    refine opcodeFetch_withMem (fun _ => ⟨h0, h1⟩) fun n hn hl => hagree _ ?_
    obtain ⟨e0, e1, -⟩ := decodeOpcode_eq_abs.mp hn
    rw [haddrs, if_pos ⟨e0, e1, hl⟩]
    simp

/-- Settles O56: by `st`, the offsets are the same over the other window, and they cover what the step reads. -/
theorem stepDependsOnItsReads : Obligations.StepDependsOnItsReads := by
  intro s m hagree
  by_cases hd : s.row = s.cfg.height
  · rw [State.memAddrs_after_end (.inr hd), State.memAddrs_after_end (s := s.withMem m) (.inr hd)]
    exact ⟨rfl, step_withMem_after_end (.inr hd) m⟩
  · cases hst : s.st with
    | ended =>
      rw [State.memAddrs_after_end (.inl hst), State.memAddrs_after_end (s := s.withMem m) (.inl hst)]
      exact ⟨rfl, step_withMem_after_end (.inl hst) m⟩
    | starting =>
      by_cases ha : s.pos.toNat + 2 ≤ s.cfg.len.toNat
      · exact fetch_depends_on_reads hst hd ha hagree
      · have hs : s.cfg.len.toNat < s.pos.toNat + 2 := Nat.lt_of_not_le ha
        rw [State.memAddrs_fetch_short hst hs, State.memAddrs_fetch_short (s := s.withMem m) hst hs, step_starting hst hd,
          step_starting (s := s.withMem m) hst hd, opcodeFetch_short hs, opcodeFetch_short (s := s.withMem m) hs]
        exact ⟨rfl, rfl⟩
    | running =>
      rw [State.memAddrs_running hst, State.memAddrs_running (s := s.withMem m) hst]
      exact ⟨rfl, step_withMem_running hst hd m⟩
    | absolute =>
      refine ⟨?_, step_withMem_absolute hst hd fun hr ha => hagree _ ?_⟩
      · by_cases hr : s.remaining = 0
        · rw [State.memAddrs_absEpilogue hst hr, State.memAddrs_absEpilogue (s := s.withMem m) hst hr]
        · rw [State.memAddrs_absEmission hst hr hd, State.memAddrs_absEmission (s := s.withMem m) hst hr hd]
          rfl
      · rw [State.memAddrs_absEmission hst hr hd, if_pos ha]
        exact List.mem_singleton_self _

end Sys2Proof.Machine

/-! SUPPORT. The STATUS word by its fields, and the outputs that show the registers. -/

namespace Sys2Proof.Machine

/-! ## The fields of the STATUS word (R32) -/

theorem State.status_st (s : State) : s.status.extractLsb' 0 2 = s.st.code := BitVec.extractLsb'_append_eq_right

theorem State.status_cause (s : State) : s.status.extractLsb' 2 3 = s.cause.code := by
  rw [State.status, BitVec.extractLsb'_append_eq_of_le (Nat.le_refl 2)]
  exact BitVec.extractLsb'_append_eq_right

theorem State.status_done (s : State) : s.status.getLsbD 5 = s.done := by
  rw [State.status, BitVec.getLsbD_append, if_neg (by decide), BitVec.getLsbD_append, if_neg (by decide),
    BitVec.getLsbD_append, if_pos (by decide)]
  cases s.done <;> rfl

theorem State.status_reserved (s : State) : s.status.extractLsb' 6 2 = 0 := by
  rw [State.status, BitVec.extractLsb'_append_eq_of_le (by decide), BitVec.extractLsb'_append_eq_of_le (by decide)]
  exact BitVec.extractLsb'_append_eq_left

theorem ofBool_eq_one (b : Bool) : BitVec.ofBool b = 1 ↔ b = true := by cases b <;> decide

/-- Settles O30: the codes are written out, each field of STATUS has its lemma, and the `dbg` outputs are the registers. -/
theorem statusWordFields : Obligations.StatusWordFields :=
  ⟨⟨rfl, rfl, rfl, rfl⟩, ⟨rfl, rfl, rfl, rfl, rfl⟩, fun s =>
    ⟨⟨s.status_st, s.status_cause, by rw [s.status_done, s.done_eq_true], s.status_reserved⟩,
      rfl, rfl, rfl, rfl, rfl, rfl, ofBool_eq_one _, ofBool_eq_one _⟩⟩

end Sys2Proof.Machine

/-! SUPPORT. The sign of the stored height, which only the size of the height and the admission of dimensions look at. -/

namespace Sys2Proof.Machine

/-- The header of the same image stored in the other row order (R181). -/
def Header.flipped (h : Header) : Header := { h with storedHeight := -h.storedHeight }

/-- The one height whose negation is itself, -2^31, leaves the header as it is. -/
theorem Header.flipped_of_intMin {h : Header} (hm : h.storedHeight = BitVec.intMin 32) : h.flipped = h := by
  rw [Header.flipped, hm, BitVec.neg_intMin, ← hm]

theorem Header.flipped_toInt {h : Header} (hm : h.storedHeight ≠ BitVec.intMin 32) :
    h.flipped.storedHeight.toInt = -h.storedHeight.toInt := BitVec.toInt_neg_of_ne_intMin hm

theorem Header.flipped_height {h : Header} (hm : h.storedHeight ≠ BitVec.intMin 32) : h.flipped.height = h.height := by
  rw [Header.height, Header.flipped_toInt hm, Int.natAbs_neg, Header.height]

theorem Header.flipped_admitted {h : Header} (hm : h.storedHeight ≠ BitVec.intMin 32) :
    h.flipped.dimensionsAdmitted = h.dimensionsAdmitted := by
  have hlt : h.storedHeight.toInt < 2 ^ 31 := BitVec.toInt_lt
  have hmin : h.storedHeight.toInt ≠ -(2 ^ 31) := fun e => hm (BitVec.eq_of_toInt_eq (e.trans (by decide)))
  have hneg : -h.storedHeight.toInt ≠ -(2 ^ 31) := by omega
  have hzero : -h.storedHeight.toInt ≠ 0 ↔ h.storedHeight.toInt ≠ 0 := not_congr Int.neg_eq_zero
  have hwidth : h.flipped.width = h.width := rfl
  simp only [Header.dimensionsAdmitted, Header.flipped_toInt hm, hwidth, hzero, decide_eq_true hmin, decide_eq_true hneg]

/-- Settles O51: -2^31 is its own negation, and of every other height only the size and whether it is 0 are looked at. -/
theorem rowOrderHasNoEffect : Obligations.RowOrderHasNoEffect := by
  intro h
  show launch h.flipped = launch h
  by_cases hm : h.storedHeight = BitVec.intMin 32
  · rw [Header.flipped_of_intMin hm]
  · rw [launch, Header.flipped_admitted hm, Header.flipped_height hm]
    rfl

end Sys2Proof.Machine

/-! SUPPORT. The bytes the window is made of: a record's length from its opcode, that no step reads outside the window, and the window
that `launch` cuts from the buffer. -/

namespace Sys2Proof.Machine

/-! ## The length of a record (R74, R75, R77) -/

theorem payloadLength_eq (m : Mode) (n : Nat) : payloadLength m n = literalBytes m n + literalBytes m n % 2 := by
  rw [payloadLength, oddCount_eq]

theorem recordLength_rle8Abs (n : Byte) : recordLength (.rle8Abs n) = 2 + (n.toNat + n.toNat % 2) :=
  congrArg (2 + ·) (payloadLength_eq .rle8 n.toNat)

theorem recordLength_rle4Abs (n : Byte) :
    recordLength (.rle4Abs n) = 2 + ((n.toNat + 1) / 2 + (n.toNat + 1) / 2 % 2) :=
  congrArg (2 + ·) (payloadLength_eq .rle4 n.toNat)

theorem padding4_eq_true (n : Byte) : padding4 n = true ↔ (n.toNat + 1) / 2 % 2 = 1 := odd_eq_true _

theorem padding4_eq_false (n : Byte) : padding4 n = false ↔ (n.toNat + 1) / 2 % 2 = 0 := odd_eq_false _

/-- The pad byte makes every record a whole number of byte pairs (R54). -/
theorem recordLength_even (i : Instr) : recordLength i % 2 = 0 := by
  cases i with
  | rle8Abs n =>
    rw [recordLength_rle8Abs]
    omega
  | rle4Abs n =>
    rw [recordLength_rle4Abs]
    omega
  | rle8Eol | rle8Eob | rle8Delta | rle8Run | rle4Eol | rle4Eob | rle4Delta | rle4Run => exact Nat.mod_self 2

/-- Settles O7: the RLE4 table is the parity of `(N + 1) / 2` for each value of `N` mod 4. -/
theorem recordLengths : Obligations.RecordLengths := by
  refine ⟨recordLength_even, fun n => ⟨?_, odd_eq_true _⟩, fun n => ?_⟩
  · rw [recordLength_rle8Abs, Nat.add_assoc]
  · rw [padding4_eq_true, padding4_eq_false, recordLength_rle4Abs]
    refine ⟨fun h => ?_, fun h => ?_, fun h => ?_, fun h => ?_⟩ <;> omega

/-! ## No read outside the window -/

/-- Settles O33: `step_answers`, where the one read without a check of its own is inside the window by the low-nibble clause of R34. -/
theorem stepIsTotal : Obligations.StepIsTotal := fun _ => step_answers

/-! ## The decoder that `launch` builds (R232) -/

/-- The configuration of a header in a mode (R232 steps 3 to 5). -/
def Header.config (h : Header) (m : Mode) : Config :=
  { mode := m, width := h.width, height := h.height, len := h.dataLength }

/-- `launch` builds a decoder exactly where the header layer admits the header and the host has a mode for it. -/
theorem launch_eq_some {h : Header} {s : State} : launch h = some s ↔
    h.dimensionsAdmitted = true ∧ h.sliceInBounds = true ∧
      ∃ m, h.mode = some m ∧ State.resetWith (h.config m) (Memory.ofBytes h.window) = s := by
  simp only [launch, Header.config, Option.ite_none_right_eq_some, Bool.and_eq_true, Option.map_eq_some_iff, and_assoc]

theorem Header.natAbs_storedHeight_le (h : Header) : h.storedHeight.toInt.natAbs ≤ 2 ^ 31 := by
  have hlo : -(2 ^ 31) ≤ h.storedHeight.toInt := BitVec.le_toInt _
  have hhi : h.storedHeight.toInt < 2 ^ 31 := BitVec.toInt_lt
  omega

/-- `H` holds the size of the stored height exactly, that of -2^31 too (D20). -/
theorem Header.height_toNat (h : Header) : h.height.toNat = h.storedHeight.toInt.natAbs := by
  have := h.natAbs_storedHeight_le
  rw [Header.height, BitVec.toNat_ofNat, Nat.mod_eq_of_lt (by omega)]

/-- The header layer's demands on the dimensions give the legal ranges of R5. -/
theorem Header.config_legal {h : Header} (ha : h.dimensionsAdmitted = true) (m : Mode) : (h.config m).Legal := by
  simp only [Header.dimensionsAdmitted, Bool.and_eq_true, decide_eq_true_eq] at ha
  obtain ⟨⟨hwidth, hheight⟩, -⟩ := ha
  have hsmall : 2 * h.width.toNat < 2 ^ 32 := BitVec.toInt_pos_iff.mp (Int.le_of_lt hwidth)
  rw [BitVec.toInt_eq_toNat_of_lt hsmall] at hwidth
  have hle := h.natAbs_storedHeight_le
  simp only [Config.Legal, Header.config, Header.height_toNat]
  omega

theorem Header.window_length {h : Header} (hs : h.sliceInBounds = true) : h.window.length = h.dataLength.toNat := by
  have hle : h.dataOffset + h.dataLength.toNat ≤ h.buffer.length := of_decide_eq_true hs
  rw [Header.window, List.length_take, List.length_drop]
  omega

/-- The window is the slice of the buffer at the pixel-data offset (R50, R52). -/
theorem Header.window_getElem? {h : Header} {a : Nat} (ha : a < h.dataLength.toNat) :
    h.window[a]? = h.buffer[h.dataOffset + a]? := by
  rw [Header.window, List.getElem?_take_of_lt ha, List.getElem?_drop]

/-- A window built from bytes has at each offset the byte of the list. -/
theorem resetWith_ofBytes_byteAt {c : Config} {bs : List Byte} (hl : bs.length = c.len.toNat) {a : Nat} (ha : a < c.len.toNat) :
    (State.resetWith c (Memory.ofBytes bs)).byteAt a = bs[a]? := by
  have hb : a < bs.length := hl.symm ▸ ha
  rw [State.byteAt_of_lt ha, State.resetWith_mem, Memory.read_ofBytes, List.getD_eq_getElem _ _ hb, List.getElem?_eq_getElem hb]

/-- At reset no pixel is answered and the counters stand for none. -/
theorem inOrder_resetWith (c : Config) (m : Memory) : (State.resetWith c m).InOrder where
  count := by simp [State.pixels, State.emitted]
  positions := by simp [State.pixels]

/-- Settles O52: the admitted header gives a legal configuration, and the window is the slice, byte by byte. -/
theorem launchMeetsPremises : Obligations.LaunchMeetsPremises := by
  intro h s hs
  obtain ⟨hadm, hslice, m, -, rfl⟩ := launch_eq_some.mp hs
  have hlen := Header.window_length hslice
  have hinv : (State.resetWith (h.config m) (Memory.ofBytes h.window)).Inv :=
    inv_resetWith (Header.config_legal hadm m) (Memory.wf_ofBytes _) (hlen ▸ Memory.within_ofBytes h.window)
  refine ⟨hinv, inOrder_resetWith _ _, rfl, rfl, h.height_toNat, rfl, fun a ha => ?_⟩
  rw [resetWith_ofBytes_byteAt hlen ha, Header.window_getElem? ha]

end Sys2Proof.Machine

/-! SUPPORT. Opcodes and their encodings: the round trip in both directions, the priority order, and the opcode map read as a match
and mask decoder. -/

namespace Sys2Proof

/-! ## The round trip -/

/-- The decoder splits off two bytes, whatever they are. -/
theorem decode_cons_cons (m : Mode) (b0 b1 : Byte) (rest : List Byte) :
    decode m (b0 :: b1 :: rest) = .ok (decodeOpcode m b0 b1, rest) := rfl

/-- A well-formed class is the class of its two bytes: the field ranges of R73 keep the five classes apart. -/
theorem classify_bytes {c : OpClass} (h : c.wellFormed = true) : classify c.bytes.1 c.bytes.2 = c := by
  cases c with
  | eol => exact classify_eol
  | eob => exact classify_eob
  | delta => exact classify_delta
  | abs n =>
    have hn : 3 ≤ n.toNat := of_decide_eq_true h
    refine classify_abs ?_ ?_ ?_ <;> rintro rfl <;> exact absurd hn (by decide)
  | run l v =>
    have hl : 1 ≤ l.toNat := of_decide_eq_true h
    refine classify_run ?_ v
    rintro rfl
    exact absurd hl (by decide)

/-- Settles O4: the class comes back from its bytes, and an instruction is the row of its class in its mode. -/
theorem decodeOfEncode : Obligations.DecodeOfEncode := by
  intro i rest h
  show decode i.mode (i.opClass.bytes.1 :: i.opClass.bytes.2 :: rest) = .ok (i, rest)
  rw [decode_cons_cons, decodeOpcode, classify_bytes h, instrOf_eta]

theorem classify_wellFormed (b0 b1 : Byte) : (classify b0 b1).wellFormed = true := by
  rcases classify_cases b0 b1 with ⟨-, -, hc⟩ | ⟨-, -, hc⟩ | ⟨-, -, hc⟩ | ⟨-, h, hc⟩ | ⟨h, hc⟩ <;> rw [hc]
  · rfl
  · rfl
  · rfl
  · exact decide_eq_true h
  · exact decide_eq_true h

theorem bytes_classify (b0 b1 : Byte) : (classify b0 b1).bytes = (b0, b1) := by
  rcases classify_cases b0 b1 with ⟨rfl, rfl, hc⟩ | ⟨rfl, rfl, hc⟩ | ⟨rfl, rfl, hc⟩ | ⟨rfl, -, hc⟩ | ⟨-, hc⟩ <;> rw [hc] <;> rfl

@[simp] theorem decodeOpcode_mode (m : Mode) (b0 b1 : Byte) : (decodeOpcode m b0 b1).mode = m := instrOf_mode m _

@[simp] theorem decodeOpcode_opClass (m : Mode) (b0 b1 : Byte) : (decodeOpcode m b0 b1).opClass = classify b0 b1 :=
  instrOf_opClass m _

theorem decodeOpcode_wellFormed (m : Mode) (b0 b1 : Byte) : (decodeOpcode m b0 b1).wellFormed = true := by
  rw [Instr.wellFormed, decodeOpcode_opClass, classify_wellFormed]

theorem encode_decodeOpcode (m : Mode) (b0 b1 : Byte) : encode (decodeOpcode m b0 b1) = [b0, b1] := by
  rw [encode, decodeOpcode_opClass, bytes_classify]

/-- Settles O5: the instruction is the decoded opcode, whose class is well formed and has the two bytes. -/
theorem encodeOfDecode : Obligations.EncodeOfDecode := fun m b0 b1 rest =>
  ⟨_, decode_cons_cons m b0 b1 rest, decodeOpcode_wellFormed m b0 b1, decodeOpcode_mode m b0 b1, encode_decodeOpcode m b0 b1⟩

/-! ## The priority order (R72) -/

/-- Settles O2: each condition says that the two bytes are those of a well-formed class. -/
theorem decodeFollowsPriority : Obligations.DecodeFollowsPriority := by
  intro m b0 b1
  simp only [decodeOpcode_opClass, decodeOpcode_mode, and_true]
  refine ⟨?_, ?_, ?_, ?_, fun h => classify_bytes (c := .run b0 b1) (decide_eq_true h)⟩
  · rintro rfl rfl
    exact classify_eol
  · rintro rfl rfl
    exact classify_eob
  · rintro rfl rfl
    exact classify_delta
  · rintro rfl h
    exact classify_bytes (c := .abs b1) (decide_eq_true h)

/-- Settles O3: each word is the encoding of the row's instruction, followed by the bytes left. -/
theorem writtenWordsDecode : Obligations.WrittenWordsDecode :=
  ⟨decodeOfEncode .rle8Eol [] rfl, decodeOfEncode .rle8Eob [] rfl, decodeOfEncode .rle8Delta [] rfl,
    decodeOfEncode (.rle8Abs 3) [0x0A] rfl, decodeOfEncode (.rle8Run 2 0x41) [] rfl, decodeOfEncode .rle4Eol [] rfl,
    decodeOfEncode .rle4Eob [] rfl, decodeOfEncode .rle4Delta [] rfl, decodeOfEncode (.rle4Abs 5) [0x12] rfl,
    decodeOfEncode (.rle4Run 5 0xAB) [] rfl⟩

/-! ## The opcode map as a match and mask decoder (R80) -/

theorem opWord_inj {b0 b1 c0 c1 : Byte} : opWord b0 b1 = opWord c0 c1 ↔ b0 = c0 ∧ b1 = c1 := by
  refine ⟨fun h => ⟨?_, ?_⟩, fun ⟨h0, h1⟩ => by rw [h0, h1]⟩
  · have := congrArg (BitVec.extractLsb' 8 8) h
    rwa [opWord, opWord, BitVec.extractLsb'_append_eq_left, BitVec.extractLsb'_append_eq_left] at this
  · have := congrArg (BitVec.extractLsb' 0 8) h
    rwa [opWord, opWord, BitVec.extractLsb'_append_eq_right, BitVec.extractLsb'_append_eq_right] at this

/-- A row of EOL, EOB or DELTA fixes the whole word. -/
theorem full_mask_matches (b0 b1 c0 c1 : Byte) : 0xFFFF &&& opWord b0 b1 = opWord c0 c1 ↔ b0 = c0 ∧ b1 = c1 := by
  rw [show (0xFFFF : BitVec 16) = BitVec.allOnes 16 from rfl, BitVec.allOnes_and, opWord_inj]

/-- The row of ABS fixes the first byte. -/
theorem high_mask_matches (b0 b1 : Byte) : 0xFF00 &&& opWord b0 b1 = opWord 0 0 ↔ b0 = 0 := by
  have hmask : (0xFF00 : BitVec 16) &&& opWord b0 b1 = opWord b0 0 := by
    rw [show (0xFF00 : BitVec 16) = BitVec.allOnes 8 ++ (0 : Byte) from rfl, opWord, BitVec.and_append, BitVec.allOnes_and]
    simp [opWord]
  rw [hmask, opWord_inj, and_iff_left rfl]

/-- The search through the rows of a mode: four tests of the word, and RUN for what fails them all. -/
theorem firstMatch_mnemonic (m : Mode) (op : BitVec 16) (b0 b1 : Byte) :
    (firstMatch m op).map OpcodeRow.mnemonic = some (instrOf m
      (if 0xFFFF &&& op = 0x0000 then .eol else if 0xFFFF &&& op = 0x0001 then .eob else if 0xFFFF &&& op = 0x0002 then .delta
        else if 0xFF00 &&& op = 0x0000 then .abs b1 else .run b0 b1)).mnemonic := by
  have hrun : 0x0000 &&& op = 0x0000 := BitVec.zero_and
  split_ifs <;> cases m <;> simp only [firstMatch, opcodeRows, List.find?_cons, decide_true, decide_false, Bool.true_and,
    Bool.false_and, reduceCtorEq, BitVec.reduceEq, instrOf, Instr.mnemonic, Option.map_some, *]

/-- Settles O6: the masks test the five conditions of R72 in their order, so the search stops at the row of the class. -/
theorem opcodeMapFirstMatch : Obligations.OpcodeMapFirstMatch := by
  intro m b0 b1
  have eol : 0xFFFF &&& opWord b0 b1 = 0x0000 ↔ b0 = 0 ∧ b1 = 0 := full_mask_matches b0 b1 0 0
  have eob : 0xFFFF &&& opWord b0 b1 = 0x0001 ↔ b0 = 0 ∧ b1 = 1 := full_mask_matches b0 b1 0 1
  have delta : 0xFFFF &&& opWord b0 b1 = 0x0002 ↔ b0 = 0 ∧ b1 = 2 := full_mask_matches b0 b1 0 2
  have abs : 0xFF00 &&& opWord b0 b1 = 0x0000 ↔ b0 = 0 := high_mask_matches b0 b1
  rw [firstMatch_mnemonic m _ b0 b1, decodeOpcode, classify]
  simp only [eol, eob, delta, abs]

end Sys2Proof

/-! SUPPORT. The assembler's absolute runs: the length of a padded payload, the nibbles of a packed byte, and reading the payload back
from the window. -/

namespace Sys2Proof.Machine

/-! ## Length -/

theorem padded_eq_append (bs : List Byte) : ∃ pad, padded bs = bs ++ pad := by
  rw [padded]
  split
  · exact ⟨[0], rfl⟩
  · exact ⟨[], (List.append_nil bs).symm⟩

theorem padded_length (bs : List Byte) : (padded bs).length = bs.length + bs.length % 2 := by
  rw [padded]
  split
  · next h => rw [List.length_append, (odd_eq_true _).mp h, List.length_singleton]
  · next h => rw [(odd_eq_false _).mp (Bool.eq_false_iff.mpr h), Nat.add_zero]

theorem packNibbles_length : ∀ ns : List Nibble, (packNibbles ns).length = (ns.length + 1) / 2
  | [] => rfl
  | [_] => by rw [packNibbles, List.length_singleton, List.length_singleton]
  | _ :: _ :: ns => by
    simp only [packNibbles, List.length_cons, packNibbles_length ns]
    omega

/-- A literal count that R81 allows fits in the byte `N`. -/
theorem ofNat_count_toNat {n : Nat} (h : n ≤ 255) : (BitVec.ofNat 8 n).toNat = n := by
  rw [BitVec.toNat_ofNat, Nat.mod_eq_of_lt (by omega)]

/-! ## Decoding -/

/-- `(0, N)` with `N ≥ 3` is the absolute run of the mode (R72). -/
theorem decode_abs (m : Mode) {n : Byte} (h : 3 ≤ n.toNat) (rest : List Byte) :
    decode m (0 :: n :: rest) = .ok (instrOf m (.abs n), rest) := by
  have hc : classify 0 n = .abs n := classify_bytes (c := .abs n) (decide_eq_true h)
  rw [decode_cons_cons, decodeOpcode, hc]

/-! ## Reading back -/

/-- Byte `k` of a payload stands two bytes after the opcode's offset, whatever stands before the record and after it. -/
theorem read_payload (before payload after : List Byte) (b0 b1 : Byte) {k : Nat} (h : k < payload.length) :
    (Memory.ofBytes (before ++ (b0 :: b1 :: padded payload) ++ after)).read (before.length + 2 + k) = payload.getD k 0 := by
  obtain ⟨pad, hpad⟩ := padded_eq_append payload
  have hstream : before ++ (b0 :: b1 :: padded payload) ++ after = (before ++ [b0, b1]) ++ (payload ++ (pad ++ after)) := by
    simp [hpad]
  have hoffset : before.length + 2 + k = (before ++ [b0, b1]).length + k := by simp
  rw [Memory.read_ofBytes, hstream, hoffset, List.getD_append_right _ _ _ _ (Nat.le_add_right _ k), Nat.add_sub_cancel_left,
    List.getD_append _ _ _ _ h]

theorem highNibble_append (hi lo : Nibble) : highNibble (hi ++ lo) = hi := BitVec.extractLsb'_append_eq_left

theorem lowNibble_append (hi lo : Nibble) : lowNibble (hi ++ lo) = lo := BitVec.extractLsb'_append_eq_right

theorem odd_add_two (j : Nat) : odd (j + 2) = odd j := by simp [odd]

/-- Nibble `j` of the list is a half of byte `j / 2`, the high one when `j` is even (R75, R81). -/
theorem selectNibble_packNibbles : ∀ (ns : List Nibble) (j : Nat) (h : j < ns.length),
    selectNibble (!odd j) ((packNibbles ns).getD (j / 2) 0) = ns[j]
  | [n], 0, _ => highNibble_append n 0
  | n0 :: n1 :: _, 0, _ => highNibble_append n0 n1
  | n0 :: n1 :: _, 1, _ => lowNibble_append n0 n1
  | _ :: _ :: ns, j + 2, h => by
    have hj : j < ns.length := by simpa using h
    rw [odd_add_two, Nat.add_div_right j (by decide), packNibbles, List.getD_cons_succ]
    exact selectNibble_packNibbles ns j hj

/-- Settles O8: the payload starts two bytes after the opcode's offset, and the pad byte and what follows come after it. -/
theorem assembledLiteralsReadBack : Obligations.AssembledLiteralsReadBack := by
  refine ⟨fun before ls after h3 h255 => ?_, fun before ns after h3 h255 => ?_⟩
  · have hcount := ofNat_count_toNat h255
    refine ⟨?_, decode_abs .rle8 (by omega) _, fun j hj => ?_⟩
    · rw [recordLength_rle8Abs, hcount, Stmt.assemble, List.length_cons, List.length_cons, padded_length]
      omega
    · rw [literal8, Stmt.assemble, read_payload before ls after _ _ hj, List.getD_eq_getElem _ _ hj, rawOfByte]
  · have hcount := ofNat_count_toNat h255
    have hlen := packNibbles_length ns
    refine ⟨?_, decode_abs .rle4 (by omega) _, fun j hj => ?_⟩
    · rw [recordLength_rle4Abs, hcount, Stmt.assemble, List.length_cons, List.length_cons, padded_length, hlen]
      omega
    · rw [literal4, Stmt.assemble, read_payload before (packNibbles ns) after _ _ (by omega), selectNibble_packNibbles ns j hj,
        rawOfNibble]

end Sys2Proof.Machine

/-! SUPPORT. The step at a record placed by `withFetchWord`. -/

namespace Sys2Proof.Machine

/-- The fetch with its two bytes in the window runs the instruction they decode to (R102, R103). -/
theorem opcodeFetch_bytes {s : State} {b0 b1 : Byte} (h0 : s.byteAt s.pos.toNat = some b0)
    (h1 : s.byteAt (s.pos.toNat + 1) = some b1) : opcodeFetch s = exec (decodeOpcode s.cfg.mode b0 b1) (s.advance 2) := by
  obtain ⟨-, hr0⟩ := State.byteAt_eq_some.mp h0
  obtain ⟨ha, hr1⟩ := State.byteAt_eq_some.mp h1
  rw [opcodeFetch_avail ha, hr0, hr1]

/-- Bytes that decode have an opcode's two at their front. -/
theorem decode_ok {m : Mode} {bs rest : List Byte} {i : Instr} (h : decode m bs = .ok (i, rest)) :
    ∃ b0 b1, bs = b0 :: b1 :: rest ∧ decodeOpcode m b0 b1 = i := by
  match bs, h with
  | b0 :: b1 :: _, h =>
    cases h
    exact ⟨b0, b1, rfl, rfl⟩

/-- A placed record that decodes is what the next step runs. -/
theorem step_placeRecord {s : State} {bs rest : List Byte} {i : Instr} (hrows : s.cfg.height ≠ 0) (hw : s.mem.wf = true)
    (hlen : bs.length < 2 ^ 32) (h : decode s.cfg.mode bs = .ok (i, rest)) :
    step (s.placeRecord bs) = exec i ((s.placeRecord bs).advance 2) := by
  obtain ⟨b0, b1, hbs, hi⟩ := decode_ok h
  have h0 : (s.placeRecord bs).byteAt (s.placeRecord bs).pos.toNat = some b0 := by
    simpa [hbs] using State.placeRecord_byteAt (k := 0) hw hlen (by simp [hbs])
  have h1 : (s.placeRecord bs).byteAt ((s.placeRecord bs).pos.toNat + 1) = some b1 := by
    simpa [hbs] using State.placeRecord_byteAt (k := 1) hw hlen (by simp [hbs])
  rw [step_starting (State.placeRecord_st s bs) (State.placeRecord_row_ne bs hrows), opcodeFetch_bytes h0 h1,
    State.placeRecord_mode, hi]

/-- Settles O21: the table word's record, padded to 258 bytes, is a placed record. -/
theorem fetchWordIsRunNext : Obligations.FetchWordIsRunNext := by
  intro s nbits w i rest hrows hw hbits h
  exact step_placeRecord hrows hw (by rw [tableRecordBytes_length hbits]; decide) h

end Sys2Proof.Machine

/-! SUPPORT. The steps that read no byte of the window. -/

namespace Sys2Proof.Machine

/-- Only the two absolute-run instructions have the class of an absolute run. -/
theorem eq_abs_of_opClass {i : Instr} {n : Byte} (h : i.opClass = .abs n) : i = .rle8Abs n ∨ i = .rle4Abs n := by
  cases i <;> cases h
  · exact .inl rfl
  · exact .inr rfl

/-- Settles O48: an opcode reads only the literal of an absolute run, and of the steps named none is a fetch or takes a literal. -/
theorem stepsThatReadNoByte : Obligations.StepsThatReadNoByte := by
  intro s m
  refine ⟨fun i hi => exec_withMem fun n hn => ?_, fun h => ?_⟩
  · exact absurd (eq_abs_of_opClass hn) (not_or.mpr (hi n))
  · by_cases hd : s.row = s.cfg.height
    · exact step_withMem_after_end (.inr hd) m
    · rcases h with hst | hst | ⟨hst, hr⟩
      · exact step_withMem_running hst hd m
      · exact step_withMem_after_end (.inl hst) m
      · exact step_withMem_absolute hst hd fun hne => absurd hr hne

end Sys2Proof.Machine

/-! SUPPORT. A record as a whole: its first `j` values, by induction on `j`, then its epilogue. -/

namespace Sys2Proof.Machine

/-! ## Runs of steps, and the end of the image -/

/-- One step more at the end of a run. -/
theorem runSteps_step {k : Nat} {s t u : State} (h : runSteps k s = .next t) (hu : step t = .next u) :
    runSteps (k + 1) s = .next u := by
  induction k generalizing s with
  | zero =>
    cases h
    exact runSteps_succ hu
  | succ k ih =>
    cases hs : step s with
    | next v =>
      rw [runSteps_succ hs] at h
      rw [runSteps_succ hs, ih h]
    | fault r | refused r =>
      simp only [runSteps, hs] at h
      cases h

/-- The image is complete exactly when the counters stand for `W·H` pixels. -/
theorem State.Inv.done_iff {s : State} (hi : s.Inv) :
    s.row = s.cfg.height ↔ s.emitted = s.cfg.width.toNat * s.cfg.height.toNat := by
  refine ⟨fun hd => ?_, fun he => ?_⟩
  · rw [State.emitted, hi.inRange.colWhenDone hd, hd, Nat.mul_comm]
    rfl
  · by_contra hd
    exact absurd he (Nat.ne_of_lt (hi.emitted_lt hd))

theorem State.Inv.not_done {s : State} (hi : s.Inv) (h : s.emitted < s.cfg.width.toNat * s.cfg.height.toNat) :
    s.row ≠ s.cfg.height := fun hd => absurd (hi.done_iff.mp hd) (Nat.ne_of_lt h)

/-! ## The state after the first values of a record -/

/-- `t` is `s` after the first `j` values of a record of `n` values, value `k` being `f k`: what every record has in common. -/
structure State.AfterValues (s : State) (n : Byte) (f : Nat → Word) (j : Nat) (t : State) : Prop where
  inv : t.Inv
  cfg : t.cfg = s.cfg
  mem : t.mem = s.mem
  remaining : t.remaining.toNat = n.toNat - j
  parity : t.parity = parityOf n
  emitted : t.emitted = s.emitted + j
  raws : t.raws = s.raws ++ (List.range j).map f

/-- A step that emits keeps the invariant and the window, counts one pixel and answers its value. -/
theorem State.EmitsTo.of_step {s t : State} {raw : Word} (he : s.EmitsTo raw t) (hi : s.Inv) (hd : s.row ≠ s.cfg.height)
    (h : step s = .next t) :
    t.Inv ∧ t.cfg = s.cfg ∧ t.mem = s.mem ∧ t.emitted = s.emitted + 1 ∧ t.raws = s.raws ++ [raw] := by
  obtain ⟨hcfg, hmem, -⟩ := step_response h
  exact ⟨stepKeepsInvariant s t hi h, hcfg, hmem, he.emitted hcfg hi.inRange.col (hi.row_lt hd), State.raws_of_pixel he.response⟩

section
variable {s t u : State} {n : Byte} {f : Nat → Word} {j : Nat}

/-- The opcode's step emits value 0. -/
theorem State.AfterValues.first (hi : s.Inv) (hd : s.row ≠ s.cfg.height) (h : step s = .next u) (he : s.EmitsTo (f 0) u)
    (hn : 1 ≤ n.toNat) (hr : u.remaining = n - 1) (hp : u.parity = parityOf n) : s.AfterValues n f 1 u := by
  obtain ⟨hinv, hcfg, hmem, hcount, hraws⟩ := he.of_step hi hd h
  exact ⟨hinv, hcfg, hmem, by rw [hr, byte_pred_toNat hn], hp, hcount, hraws⟩

/-- A later emission emits value `j`. -/
theorem State.AfterValues.next (ht : s.AfterValues n f j t) (hj : j < n.toNat) (hd : t.row ≠ t.cfg.height)
    (h : step t = .next u) (he : t.EmitsTo (f j) u) (hr : u.remaining = t.remaining - 1) (hp : u.parity = t.parity) :
    s.AfterValues n f (j + 1) u := by
  obtain ⟨hinv, hcfg, hmem, hcount, hraws⟩ := he.of_step ht.inv hd h
  have hleft := ht.remaining
  refine ⟨hinv, hcfg.trans ht.cfg, hmem.trans ht.mem, ?_, hp.trans ht.parity, by rw [hcount, ht.emitted, Nat.add_assoc], ?_⟩
  · rw [hr, byte_pred_toNat (by omega)]
    omega
  · rw [hraws, ht.raws, List.range_succ, List.map_append, List.append_assoc]
    rfl

theorem State.AfterValues.not_done (ht : s.AfterValues n f j t)
    (h : s.emitted + j < s.cfg.width.toNat * s.cfg.height.toNat) : t.row ≠ t.cfg.height :=
  ht.inv.not_done (by rw [ht.emitted, ht.cfg]; exact h)

theorem State.AfterValues.remaining_ne_zero (ht : s.AfterValues n f j t) (hj : j < n.toNat) : t.remaining ≠ 0 :=
  byte_ne_zero.mpr (by rw [ht.remaining]; omega)

theorem State.AfterValues.remaining_eq_zero (ht : s.AfterValues n f j t) (hj : j = n.toNat) : t.remaining = 0 :=
  BitVec.eq_of_toNat_eq (by rw [ht.remaining, hj, Nat.sub_self]; rfl)

/-- Of the values of a record those with an even index take the high nibble (R147). -/
theorem State.AfterValues.wantsLeft (ht : s.AfterValues n f j t) (hj : j < n.toNat) : t.wantsLeft = !odd j := by
  rw [State.wantsLeft, ht.remaining, ht.parity, parityOf, Bool.eq_iff_iff, wantLeft_eq_true, odd_eq_false, Bool.not_eq_true',
    odd_eq_false]
  omega

end

/-! ## Encoded runs -/

/-- Value `j` of an encoded run of value `v` (R120, R142, R147). -/
def runValue : Mode → Byte → Nat → Word
  | .rle8, v, _ => rawOfByte v
  | .rle4, v, j => runNibble v j

theorem runValue_rle8 (v : Byte) : runValue .rle8 v = fun _ => rawOfByte v := rfl
theorem runValue_rle4 (v : Byte) : runValue .rle4 v = runNibble v := rfl

/-- The step at the opcode of an encoded run (R120, R141). -/
theorem step_run {s : State} {l v : Byte} (hst : s.st = .starting) (hd : s.row ≠ s.cfg.height)
    (h0 : s.byteAt s.pos.toNat = some l) (h1 : s.byteAt (s.pos.toNat + 1) = some v) (hl : 1 ≤ l.toNat) :
    step s = .next { (s.advance 2).emit (runValue s.cfg.mode v 0) with
      remaining := l - 1, value := v, parity := parityOf l, st := .running } := by
  rw [step_starting hst hd, opcodeFetch_bytes h0 h1, decodeOpcode, classify_run (byte_ne_zero.mpr hl)]
  cases s.cfg.mode <;> rfl

theorem step_runEmission {s : State} (hst : s.st = .running) (hd : s.row ≠ s.cfg.height) (hr : s.remaining ≠ 0) :
    step s = .next { s.emit s.runRaw with remaining := s.remaining - 1 } := by
  rw [step_running hst hd, if_neg hr, runEmission_eq]

theorem step_runEpilogue {s : State} (hst : s.st = .running) (hd : s.row ≠ s.cfg.height) (hr : s.remaining = 0) :
    step s = .next { s with st := .starting } := by
  rw [step_running hst hd, if_pos hr, runEpilogue]

/-- After `j` values of a run the next emission is value `j`. -/
theorem State.AfterValues.runRaw {s t : State} {l v : Byte} {f : Nat → Word} {j : Nat} (ht : s.AfterValues l f j t)
    (hv : t.value = v) (hj : j < l.toNat) : t.runRaw = runValue s.cfg.mode v j := by
  rw [State.runRaw, ht.cfg, ht.wantsLeft hj, hv]
  cases s.cfg.mode <;> rfl

/-- The first values of an encoded run, one a step. -/
theorem run_values {s : State} {l v : Byte} (hi : s.Inv) (hst : s.st = .starting) (h0 : s.byteAt s.pos.toNat = some l)
    (h1 : s.byteAt (s.pos.toNat + 1) = some v) (j : Nat) (hj : j < l.toNat)
    (hroom : s.emitted + j < s.cfg.width.toNat * s.cfg.height.toNat) :
    ∃ t, runSteps (j + 1) s = .next t ∧ s.AfterValues l (runValue s.cfg.mode v) (j + 1) t ∧ t.st = .running ∧ t.value = v ∧
      t.pos.toNat = s.pos.toNat + 2 := by
  induction j with
  | zero =>
    have hd := hi.not_done hroom
    have hstep := step_run hst hd h0 h1 (by omega)
    exact ⟨_, runSteps_step (runSteps_zero s) hstep,
      .first hi hd hstep (.of_advance (n := 2) (.of_eq rfl rfl rfl)) (by omega) rfl rfl, rfl, rfl,
      advance_two_pos (State.byteAt_eq_some.mp h1).1⟩
  | succ j ih =>
    obtain ⟨t, hrun, ht, htst, htv, htp⟩ := ih (by omega) (by omega)
    have hd := ht.not_done hroom
    have hstep := step_runEmission htst hd (ht.remaining_ne_zero hj)
    rw [ht.runRaw htv hj] at hstep
    exact ⟨_, runSteps_step hrun hstep, ht.next hj hd hstep (.of_eq rfl rfl rfl) rfl rfl, htst, htv, htp⟩

/-- A whole encoded run: its values, then the epilogue (R104). -/
theorem run_record {s : State} {l v : Byte} (hi : s.Inv) (hst : s.st = .starting) (h0 : s.byteAt s.pos.toNat = some l)
    (h1 : s.byteAt (s.pos.toNat + 1) = some v) (hl : 1 ≤ l.toNat)
    (hroom : s.emitted + l.toNat < s.cfg.width.toNat * s.cfg.height.toNat) :
    ∃ t, runSteps (l.toNat + 1) s = .next t ∧ t.st = .starting ∧ t.pos.toNat = s.pos.toNat + 2 ∧
      t.raws = s.raws ++ (List.range l.toNat).map (runValue s.cfg.mode v) := by
  obtain ⟨t, hrun, ht, htst, -, htp⟩ := run_values hi hst h0 h1 (l.toNat - 1) (by omega) (by omega)
  rw [Nat.sub_add_cancel hl] at hrun ht
  have hstep := step_runEpilogue htst (ht.not_done hroom) (ht.remaining_eq_zero rfl)
  exact ⟨_, runSteps_step hrun hstep, rfl, htp, ht.raws⟩

/-! ## Absolute runs -/

/-- The absolute epilogue where the pad byte, if there is one, lies in the window (R106). -/
theorem step_absEpilogue {s : State} (hst : s.st = .absolute) (hd : s.row ≠ s.cfg.height) (hr : s.remaining = 0)
    (ha : s.pos.toNat + s.padding.toNat ≤ s.cfg.len.toNat) :
    step s = .next { s.advance s.padding.toNat with st := .starting } := by
  rw [step_absolute hst hd, if_pos hr, absEpilogue]
  cases hp : s.padding with
  | false => simp [hp]
  | true =>
    rw [hp] at ha
    rw [if_pos rfl, if_pos ((State.avail_eq_true s 1).mpr ha)]
    rfl

/-- The fetch of an absolute run's opcode (R102, R103). -/
theorem step_abs {s : State} {n : Byte} (hst : s.st = .starting) (hd : s.row ≠ s.cfg.height)
    (h0 : s.byteAt s.pos.toNat = some 0) (h1 : s.byteAt (s.pos.toNat + 1) = some n) (hn : 3 ≤ n.toNat) :
    step s = exec (instrOf s.cfg.mode (.abs n)) (s.advance 2) := by
  have hc : classify 0 n = .abs n := classify_bytes (c := .abs n) (decide_eq_true hn)
  rw [step_starting hst hd, opcodeFetch_bytes h0 h1, decodeOpcode, hc]

/-- A whole absolute run from the state after its last value: the epilogue consumes the pad byte (R106). -/
theorem State.AfterValues.absEpilogue {s t : State} {n : Byte} {f : Nat → Word} {k : Nat} (ht : s.AfterValues n f n.toNat t)
    (hrun : runSteps n.toNat s = .next t) (hst : t.st = .absolute) (hpad : t.padding.toNat = k % 2)
    (hp : t.pos.toNat = s.pos.toNat + 2 + k) (hlen : s.pos.toNat + 2 + k + k % 2 ≤ s.cfg.len.toNat)
    (hroom : s.emitted + n.toNat < s.cfg.width.toNat * s.cfg.height.toNat) :
    ∃ u, runSteps (n.toNat + 1) s = .next u ∧ u.st = .starting ∧ u.pos.toNat = s.pos.toNat + 2 + k + k % 2 ∧
      u.raws = s.raws ++ (List.range n.toNat).map f := by
  have hl := s.len_lt
  have hstep := step_absEpilogue hst (ht.not_done hroom) (ht.remaining_eq_zero rfl) (by rw [ht.cfg, hpad, hp]; exact hlen)
  have hpos : (t.advance t.padding.toNat).pos.toNat = s.pos.toNat + 2 + k + k % 2 := by
    rw [State.advance_pos_toNat (by omega), hp, hpad]
  exact ⟨_, runSteps_step hrun hstep, rfl, hpos, ht.raws⟩

/-! ### RLE8 -/

/-- The step at the opcode of an RLE8 absolute run (R122). -/
theorem step_abs8 {s : State} {n : Byte} (hst : s.st = .starting) (hd : s.row ≠ s.cfg.height) (hm : s.cfg.mode = .rle8)
    (h0 : s.byteAt s.pos.toNat = some 0) (h1 : s.byteAt (s.pos.toNat + 1) = some n) (hn : 3 ≤ n.toNat)
    (ha : s.pos.toNat + 3 ≤ s.cfg.len.toNat) :
    step s = .next { ((s.advance 2).emit (literal8 s.mem s.pos.toNat 0)).advance 1 with
      remaining := n - 1, parity := parityOf n, padding := padding8 n, st := .absolute } := by
  have hp : (s.advance 2).pos.toNat = s.pos.toNat + 2 := advance_two_pos (by omega)
  rw [step_abs hst hd h0 h1 hn, hm, instrOf, exec_rle8Abs_avail (by rw [hp]; exact ha), hp]
  rfl

/-- An RLE8 absolute emission with a byte at the cursor (R123). -/
theorem step_literal8 {s : State} (hst : s.st = .absolute) (hd : s.row ≠ s.cfg.height) (hm : s.cfg.mode = .rle8)
    (hr : s.remaining ≠ 0) (ha : s.pos.toNat + 1 ≤ s.cfg.len.toNat) :
    step s = .next { (s.emit (rawOfByte (s.mem.read s.pos.toNat))).advance 1 with remaining := s.remaining - 1 } := by
  rw [step_absolute hst hd, if_neg hr]
  simp only [absEmission, hm, rle8AbsEmission]
  exact rle8Literal_avail ha _

/-- The first literals of an RLE8 absolute run, one a step and one a byte. -/
theorem abs8_values {s : State} {n : Byte} (hi : s.Inv) (hst : s.st = .starting) (hm : s.cfg.mode = .rle8)
    (h0 : s.byteAt s.pos.toNat = some 0) (h1 : s.byteAt (s.pos.toNat + 1) = some n) (hn : 3 ≤ n.toNat) (j : Nat)
    (hj : j < n.toNat) (hlen : s.pos.toNat + 2 + (j + 1) ≤ s.cfg.len.toNat)
    (hroom : s.emitted + j < s.cfg.width.toNat * s.cfg.height.toNat) :
    ∃ t, runSteps (j + 1) s = .next t ∧ s.AfterValues n (literal8 s.mem s.pos.toNat) (j + 1) t ∧ t.st = .absolute ∧
      t.padding = padding8 n ∧ t.pos.toNat = s.pos.toNat + 2 + (j + 1) := by
  induction j with
  | zero =>
    have hd := hi.not_done hroom
    have hstep := step_abs8 hst hd hm h0 h1 hn hlen
    exact ⟨_, runSteps_step (runSteps_zero s) hstep,
      .first hi hd hstep (.of_advance (n := 2) (.of_eq rfl rfl rfl)) (by omega) rfl rfl, rfl, rfl, advance_three_pos hlen⟩
  | succ j ih =>
    obtain ⟨t, hrun, ht, htst, htpad, htp⟩ := ih (by omega) (by omega) (by omega)
    have hd := ht.not_done hroom
    have ha : t.pos.toNat + 1 ≤ t.cfg.len.toNat := by rw [ht.cfg, htp]; exact hlen
    have hstep := step_literal8 htst hd (ht.cfg ▸ hm) (ht.remaining_ne_zero hj) ha
    rw [ht.mem, htp] at hstep
    exact ⟨_, runSteps_step hrun hstep, ht.next hj hd hstep (.of_eq rfl rfl rfl) rfl rfl, htst, htpad,
      (advance_one_pos ha).trans (congrArg (· + 1) htp)⟩

theorem padding8_toNat (n : Byte) : (padding8 n).toNat = n.toNat % 2 := odd_toNat _

/-- Settles O46: the values of a run or an absolute run up to the last, then its epilogue. -/
theorem rle8RecordConsumption : Obligations.Rle8RecordConsumption := by
  intro s hi hst hm
  refine ⟨fun l v h0 h1 hl hroom => ?_, fun n h0 h1 hn hlen hroom => ?_⟩
  · obtain ⟨t, hrun, htst, htp, hraws⟩ := run_record hi hst h0 h1 hl hroom
    rw [hm, runValue_rle8, List.map_const', List.length_range] at hraws
    exact ⟨t, hrun, htst, htp, hraws⟩
  · obtain ⟨t, hrun, ht, htst, htpad, htp⟩ := abs8_values hi hst hm h0 h1 hn (n.toNat - 1) (by omega) (by omega) (by omega)
    rw [Nat.sub_add_cancel (by omega)] at hrun ht htp
    exact ht.absEpilogue hrun htst (htpad ▸ padding8_toNat n) htp hlen hroom

/-! ### RLE4 -/

/-- The step at the opcode of an RLE4 absolute run (R143). -/
theorem step_abs4 {s : State} {n : Byte} (hst : s.st = .starting) (hd : s.row ≠ s.cfg.height) (hm : s.cfg.mode = .rle4)
    (h0 : s.byteAt s.pos.toNat = some 0) (h1 : s.byteAt (s.pos.toNat + 1) = some n) (hn : 3 ≤ n.toNat)
    (ha : s.pos.toNat + 3 ≤ s.cfg.len.toNat) :
    step s = .next { (s.advance 2).emit (literal4 s.mem s.pos.toNat 0) with
      remaining := n - 1, parity := parityOf n, padding := padding4 n, st := .absolute } := by
  have hp : (s.advance 2).pos.toNat = s.pos.toNat + 2 := advance_two_pos (by omega)
  rw [step_abs hst hd h0 h1 hn, hm, instrOf, exec_rle4Abs_avail (by rw [hp]; exact ha), hp]
  rfl

/-- The bytes an RLE4 literal consumes: none for a high nibble that is not the last literal (R144). -/
def State.nibbleAdvance (s : State) : Nat := if s.wantsLeft = true ∧ s.remaining ≠ 1 then 0 else 1

/-- An RLE4 absolute emission with a byte at the cursor: the branches of R144 in one. -/
theorem step_literal4 {s : State} (hst : s.st = .absolute) (hd : s.row ≠ s.cfg.height) (hm : s.cfg.mode = .rle4)
    (hr : s.remaining ≠ 0) (ha : s.pos.toNat + 1 ≤ s.cfg.len.toNat) :
    step s = .next { (s.emit (rawOfNibble (selectNibble s.wantsLeft (s.mem.read s.pos.toNat)))).advance s.nibbleAdvance with
      remaining := s.remaining - 1 } := by
  rw [step_absolute hst hd, if_neg hr]
  simp only [absEmission, hm, rle4AbsEmission, State.nibbleAdvance]
  cases hw : s.wantsLeft with
  | false => exact rle4LowLiteral_avail ha
  | true =>
    rw [if_pos rfl, rle4HighLiteral_avail ha]
    by_cases h1 : s.remaining = 1
    · simp only [h1, if_true, ne_eq, not_true_eq_false, and_false, if_false]
      rfl
    · simp only [h1, if_false, ne_eq, not_false_eq_true, and_true, if_true, State.advance_zero]
      rfl

/-- After `j` values of an absolute run the cursor moves on after a low nibble and after the last literal. -/
theorem State.AfterValues.nibbleAdvance {s t : State} {n : Byte} {f : Nat → Word} {j : Nat} (ht : s.AfterValues n f j t)
    (hj : j < n.toNat) : t.nibbleAdvance = if j % 2 = 0 ∧ j + 1 ≠ n.toNat then 0 else 1 := by
  have hlast : t.remaining ≠ 1 ↔ j + 1 ≠ n.toNat := by
    rw [Ne, ← BitVec.toNat_inj, ht.remaining]
    simp only [BitVec.ofNat_eq_ofNat, BitVec.toNat_ofNat]
    omega
  rw [State.nibbleAdvance, ht.wantsLeft hj]
  simp only [Bool.not_eq_true', odd_eq_false, hlast]

/-- The literal bytes an RLE4 absolute run of `n` values has consumed after `j` of them: the byte of a pending low nibble is not
among them (R144). -/
def nibbleBytes (n j : Nat) : Nat := if j = n then (j + 1) / 2 else j / 2

/-- The first literals of an RLE4 absolute run, one a step. -/
theorem abs4_values {s : State} {n : Byte} (hi : s.Inv) (hst : s.st = .starting) (hm : s.cfg.mode = .rle4)
    (h0 : s.byteAt s.pos.toNat = some 0) (h1 : s.byteAt (s.pos.toNat + 1) = some n) (hn : 3 ≤ n.toNat) (j : Nat)
    (hj : j < n.toNat) (hlen : s.pos.toNat + 2 + (j + 2) / 2 ≤ s.cfg.len.toNat)
    (hroom : s.emitted + j < s.cfg.width.toNat * s.cfg.height.toNat) :
    ∃ t, runSteps (j + 1) s = .next t ∧ s.AfterValues n (literal4 s.mem s.pos.toNat) (j + 1) t ∧ t.st = .absolute ∧
      t.padding = padding4 n ∧ t.pos.toNat = s.pos.toNat + 2 + nibbleBytes n.toNat (j + 1) := by
  have hl := s.len_lt
  induction j with
  | zero =>
    have hd := hi.not_done hroom
    have hstep := step_abs4 hst hd hm h0 h1 hn (by omega)
    have hfirst : nibbleBytes n.toNat 1 = 0 := if_neg (by omega)
    have hp : (s.advance 2).pos.toNat = s.pos.toNat + 2 := advance_two_pos (by omega)
    exact ⟨_, runSteps_step (runSteps_zero s) hstep,
      .first hi hd hstep (.of_advance (n := 2) (.of_eq rfl rfl rfl)) (by omega) rfl rfl, rfl, rfl, by rw [hfirst]; exact hp⟩
  | succ j ih =>
    obtain ⟨t, hrun, ht, htst, htpad, htp⟩ := ih (by omega) (by omega) (by omega)
    have hd := ht.not_done hroom
    rw [nibbleBytes, if_neg (by omega)] at htp
    have hstep := step_literal4 htst hd (ht.cfg ▸ hm) (ht.remaining_ne_zero hj) (by rw [ht.cfg, htp]; omega)
    have hadv := ht.nibbleAdvance hj
    have hpos : (t.advance t.nibbleAdvance).pos.toNat = s.pos.toNat + 2 + nibbleBytes n.toNat (j + 1 + 1) := by
      rw [State.advance_pos_toNat] <;> rw [htp, hadv]
      · rw [nibbleBytes]
        split <;> split <;> omega
      · split <;> omega
    rw [ht.wantsLeft hj, ht.mem, htp] at hstep
    exact ⟨_, runSteps_step hrun hstep, ht.next hj hd hstep (.of_eq rfl rfl rfl) rfl rfl, htst, htpad, hpos⟩

theorem padding4_toNat (n : Byte) : (padding4 n).toNat = (n.toNat + 1) / 2 % 2 := odd_toNat _

/-- Settles O47: the values of a run or an absolute run up to the last, high nibble first, then its epilogue. -/
theorem rle4RecordConsumption : Obligations.Rle4RecordConsumption := by
  intro s hi hst hm
  refine ⟨fun l v h0 h1 hl hroom => ?_, fun n h0 h1 hn hlen hroom => ?_⟩
  · rw [← runValue_rle4, ← hm]
    exact run_record hi hst h0 h1 hl hroom
  · rw [recordLength_rle4Abs] at hlen
    obtain ⟨t, hrun, ht, htst, htpad, htp⟩ := abs4_values hi hst hm h0 h1 hn (n.toNat - 1) (by omega) (by omega) (by omega)
    rw [Nat.sub_add_cancel (by omega)] at hrun ht htp
    rw [nibbleBytes, if_pos rfl] at htp
    exact ht.absEpilogue hrun htst (htpad ▸ padding4_toNat n) htp (by omega) hroom

end Sys2Proof.Machine

/-! SUPPORT. The micro-steps that belong to no opcode: the fetch and the two epilogues (40_fsm_core.md R102 to R106). -/

namespace Sys2Proof.Machine

/-- Settles O20: bytes that decode are an opcode's two, and a short fetch raises the end before any read. -/
theorem stepRunsDecodedInstruction : Obligations.StepRunsDecodedInstruction := by
  intro s hst hd
  rw [step_starting hst hd]
  refine ⟨fun b0 b1 rest rest' i h0 h1 hdec => ?_, fun hshort => ?_⟩
  · rw [decode_cons_cons] at hdec
    cases hdec
    exact opcodeFetch_bytes h0 h1
  · exact ⟨_, opcodeFetch_short hshort, s.endsTo_raiseEnd .truncated⟩

/-- The absolute epilogue where the pad byte is missing (R106). -/
theorem step_padShort {s : State} (hst : s.st = .absolute) (hd : s.row ≠ s.cfg.height) (hr : s.remaining = 0)
    (hp : s.padding = true) (hshort : s.cfg.len.toNat < s.pos.toNat + 1) : step s = .next (s.raiseEnd .truncated) := by
  rw [step_absolute hst hd, if_pos hr, absEpilogue, if_pos hp, (State.avail_eq_false s 1).mpr hshort]
  rfl

/-- Settles O27: by `padding`, and by whether the window holds the pad byte. -/
theorem absoluteEpilogue : Obligations.AbsoluteEpilogue := by
  intro s hst hr hd
  refine ⟨fun hp => ?_, fun hp ha => ?_, fun hp hshort => ?_⟩
  · rw [step_absolute hst hd, if_pos hr, absEpilogue, hp]
    rfl
  · have h := step_absEpilogue hst hd hr (by rw [hp]; exact ha)
    rw [hp] at h
    exact h
  · exact ⟨_, step_padShort hst hd hr hp hshort, s.endsTo_raiseEnd .truncated⟩

end Sys2Proof.Machine

namespace Sys2Proof

/-- Settles O26: with no value left the step is the epilogue, which writes `st` alone. It stands outside `Machine`, where `runEpilogue` is
the micro-step itself. -/
theorem runEpilogue : Obligations.RunEpilogue := fun _ hst hr hd => Machine.step_runEpilogue hst hd hr

end Sys2Proof

/-! SUPPORT. A call and a run of calls: one response a step at most, a bound on the micro-steps of a call that each of them lowers until
one answers (40_fsm_core.md R109), and one position fewer left after each pixel (44_pixel_output.md R185, R186). -/

namespace Sys2Proof.Machine

/-- Settles O38: the three ways a step bears on the call, the counters one position on in the third. -/
theorem oneEmissionPerStep : Obligations.OneEmissionPerStep := by
  intro s t hi h
  obtain ⟨hcfg, -, ⟨hr, hcol, hrow, -⟩ | ⟨hr, hcol, hrow, -⟩ | ⟨raw, he, hd, -⟩⟩ := step_response h
  · exact .inl ⟨hr, hcol, hrow⟩
  · exact .inr (.inl ⟨hr, hcol, hrow⟩)
  · exact .inr (.inr ⟨raw, he, he.emitted hcfg hi.inRange.col (hi.row_lt hd)⟩)

/-! ## The micro-steps a call can still take -/

/-- The bound of R109 sharpened by `st`: in STARTING no epilogue comes before the answer. Every micro-step that leaves the call in
progress lowers it. -/
def State.microStepBound (s : State) : Nat := (if s.st = .starting then 1 else 2) + (s.cfg.len.toNat - s.pos.toNat) / 2

theorem State.microStepBound_starting {s : State} (hst : s.st = .starting) :
    s.microStepBound = 1 + (s.cfg.len.toNat - s.pos.toNat) / 2 := by rw [State.microStepBound, if_pos hst]

theorem State.microStepBound_not_starting {s : State} (hst : s.st ≠ .starting) :
    s.microStepBound = 2 + (s.cfg.len.toNat - s.pos.toNat) / 2 := by rw [State.microStepBound, if_neg hst]

theorem State.microStepBound_pos (s : State) : 0 < s.microStepBound := by
  rw [State.microStepBound]
  split <;> omega

theorem State.microStepBound_le_callBound (s : State) : s.microStepBound ≤ s.callBound := by
  rw [State.microStepBound, State.callBound]
  split <;> omega

/-- A return to STARTING, with or without a pad byte, lowers the bound. -/
theorem State.microStepBound_returns {s t : State} (hs : s.st ≠ .starting) (ht : t.st = .starting) (hc : t.cfg = s.cfg)
    (hp : s.pos.toNat ≤ t.pos.toNat) : t.microStepBound < s.microStepBound := by
  rw [State.microStepBound_starting ht, State.microStepBound_not_starting hs, hc]
  omega

/-- A step that leaves the call in progress is a skipped end of line, which takes two bytes, or an epilogue (R109). -/
theorem microStepBound_step_lt {s t : State} (h : step s = .next t) (hr : t.resps = s.resps) :
    t.microStepBound < s.microStepBound := by
  have hanswered : ∀ r, s.resps ++ [r] ≠ s.resps := by simp
  cases step_effect h with
  | eolSkip _ hst ha =>
    rw [State.microStepBound_starting hst, State.microStepBound_starting (s := s.advance 2) hst, advance_two_pos ha,
      State.advance_cfg]
    omega
  | runEpilogue _ hst | absEpilogue _ hst => exact State.microStepBound_returns (by simp [hst]) rfl rfl (Nat.le_refl _)
  | absPad _ hst _ _ ha =>
    exact State.microStepBound_returns (by simp [hst]) rfl rfl (Nat.le.intro (advance_one_pos ha).symm)
  | afterEnd | fetchShort | eolEnd | eobEnd | deltaEnd | absShort | abs8 | abs4 | run8 | run4 | runEmission | padShort
  | literalShort | literal8 | literalHigh | literalLastHigh | literalLow => exact absurd hr (hanswered _)

/-! ## A call -/

/-- `t` is `s` after a call answered with `r`: a `NONE` only at the end, and otherwise one position fewer left (R108, R184). -/
structure State.Answered (s : State) (r : Response) (t : State) : Prop where
  inv : t.Inv
  cfg : t.cfg = s.cfg
  response : t.resps = s.resps ++ [r]
  none : r = .none → t.st = .ended ∨ t.row = t.cfg.height
  pixel : r ≠ .none → t.emitted = s.emitted + 1

/-- Steps that left the call in progress do not matter to its answer. -/
theorem State.Answered.of_in_progress {s u t : State} {r : Response} (h : u.Answered r t) (hc : u.cfg = s.cfg)
    (hr : u.resps = s.resps) (he : u.emitted = s.emitted) : s.Answered r t :=
  ⟨h.inv, h.cfg.trans hc, hr ▸ h.response, h.none, fun hp => he ▸ h.pixel hp⟩

/-- A step leaves the call in progress or answers it. -/
theorem step_in_progress_or_answered {s t : State} (hi : s.Inv) (h : step s = .next t) :
    (t.cfg = s.cfg ∧ t.resps = s.resps ∧ t.emitted = s.emitted) ∨ ∃ r, s.Answered r t := by
  have hinv := stepKeepsInvariant s t hi h
  obtain ⟨hcfg, -, ⟨hr, hcol, hrow, -⟩ | ⟨hr, -, -, hend⟩ | ⟨raw, he, hd, -⟩⟩ := step_response h
  · exact .inl ⟨hcfg, hr, by rw [State.emitted, State.emitted, hcfg, hcol, hrow]⟩
  · exact .inr ⟨.none, hinv, hcfg, hr, fun _ => hend, fun hp => absurd rfl hp⟩
  · exact .inr ⟨.pixel _, hinv, hcfg, he.response, nofun, fun _ => he.emitted hcfg hi.inRange.col (hi.row_lt hd)⟩

/-- With fuel for the bound, the loop of a call ends where one of its steps answers. -/
theorem callLoop_answers (f : Nat) : ∀ {s : State}, s.Inv → s.microStepBound ≤ f →
    ∃ k ≤ f, ∃ t r, runSteps k s = .next t ∧ callLoop f s = .next t ∧ s.Answered r t := by
  induction f with
  | zero => exact fun {s} _ hf => absurd s.microStepBound_pos (by omega)
  | succ f ih =>
    intro s hi hf
    obtain ⟨u, hu⟩ := step_answers hi
    rcases step_in_progress_or_answered hi hu with ⟨hc, hr, he⟩ | ⟨r, ha⟩
    · have hlt := microStepBound_step_lt hu hr
      obtain ⟨k, hk, t, r, hrun, hcall, ha⟩ := ih (stepKeepsInvariant s u hi hu) (by omega)
      exact ⟨k + 1, by omega, t, r, (runSteps_succ hu).trans hrun, (callLoop_goes_on hu hr).trans hcall,
        ha.of_in_progress hc hr he⟩
    · exact ⟨1, by omega, u, r, runSteps_succ hu, callLoop_answered hu ha.response, ha⟩

/-- A call is answered within the bound of R109. -/
theorem call_answers {s : State} (hi : s.Inv) :
    ∃ k ≤ s.callBound, ∃ t r, runSteps k s = .next t ∧ call s = .next t ∧ s.Answered r t :=
  callLoop_answers s.callBound hi s.microStepBound_le_callBound

/-- Settles O44: the call's loop has the bound as its fuel, and its last step gives the one response. -/
theorem callIsAnsweredWithinBound : Obligations.CallIsAnsweredWithinBound := by
  intro s hi
  obtain ⟨k, hk, t, r, hrun, hcall, ha⟩ := call_answers hi
  exact ⟨k, t, r, hk, hrun, hcall, ha.response, ha.inv⟩

/-! ## A run of calls -/

/-- A run ends at the first `NONE` (R185). -/
theorem runCalls_ended {k : Nat} {s t : State} (h : call s = .next t) (he : t.runEnded = true) :
    runCalls (k + 1) s = .next t := by
  simp only [runCalls, h, he, if_true]

/-- A run goes on after a pixel. -/
theorem runCalls_goes_on {k : Nat} {s t : State} (h : call s = .next t) (he : t.runEnded = false) :
    runCalls (k + 1) s = runCalls k t := by
  simp [runCalls, h, he]

theorem State.Answered.runEnded_iff {s t : State} {r : Response} (h : s.Answered r t) : t.runEnded = true ↔ r = .none := by
  simp [State.runEnded, h.response]

/-- With one call more than the positions left, a run reaches a `NONE`: each pixel before it takes one of the positions. -/
theorem runCalls_ends (k : Nat) : ∀ {s : State}, s.Inv → s.cfg.width.toNat * s.cfg.height.toNat - s.emitted < k →
    ∃ t, runCalls k s = .next t ∧ t.runEnded = true ∧ t.Inv ∧ (t.st = .ended ∨ t.row = t.cfg.height) := by
  induction k with
  | zero => exact fun _ hk => absurd hk (Nat.not_lt_zero _)
  | succ k ih =>
    intro s hi hk
    obtain ⟨-, -, t, r, -, hcall, ha⟩ := call_answers hi
    by_cases hn : r = .none
    · have he := ha.runEnded_iff.mpr hn
      exact ⟨t, runCalls_ended hcall he, he, ha.inv, ha.none hn⟩
    · have he : t.runEnded = false := Bool.eq_false_iff.mpr fun h => hn (ha.runEnded_iff.mp h)
      have hle := ha.inv.emitted_le
      rw [ha.pixel hn, ha.cfg] at hle
      rw [runCalls_goes_on hcall he]
      exact ih ha.inv (by rw [ha.pixel hn, ha.cfg]; omega)

/-- Settles O45: the calls allowed are one more than the positions left. -/
theorem runEndsWithNone : Obligations.RunEndsWithNone := fun _ hi => runCalls_ends _ hi (Nat.lt_succ_self _)

end Sys2Proof.Machine

/-! SUPPORT. The range of the raw values answered, and the first values of an RLE8 record up to the end of the image. -/

namespace Sys2Proof.Machine

/-! ## Raw values (R125, R148) -/

theorem State.rawInRange_of_pixels {s t : State} (hs : s.rawInRange) (hcfg : t.cfg = s.cfg) (hp : t.pixels = s.pixels) :
    t.rawInRange := by
  rw [State.rawInRange, hcfg, hp]
  exact hs

/-- A pixel more keeps the range when its value fits the mode. -/
theorem State.rawInRange_of_pixel {s t : State} {p : Pixel} (hs : s.rawInRange) (hcfg : t.cfg = s.cfg)
    (hr : t.resps = s.resps ++ [.pixel p]) (h8 : s.cfg.mode = .rle8 → p.raw.toNat < 256)
    (h4 : s.cfg.mode = .rle4 → p.raw.toNat < 16) : t.rawInRange := by
  intro q hq
  rw [State.pixels_of_pixel hr, List.mem_append, List.mem_singleton] at hq
  rw [hcfg]
  rcases hq with hq | rfl
  · exact hs q hq
  · cases hm : s.cfg.mode with
    | rle8 => exact h8 hm
    | rle4 => exact h4 hm

/-- Settles O41: a step answers no pixel, or one whose raw value is a widened byte or nibble, as the mode says. -/
theorem stepKeepsRawRange : Obligations.StepKeepsRawRange := by
  intro s t hs h
  obtain ⟨hcfg, -, ⟨hr, -⟩ | ⟨hr, -⟩ | ⟨raw, he, -, h8, h4⟩⟩ := step_response h
  · exact State.rawInRange_of_pixels hs hcfg (State.pixels_of_resps hr)
  · exact State.rawInRange_of_pixels hs hcfg (State.pixels_of_none hr)
  · exact State.rawInRange_of_pixel hs hcfg he.response h8 h4

/-! ## The first values of a record -/

/-- After `j` values of a record the image is complete exactly when they reach its last pixel (R182). -/
theorem State.AfterValues.done_iff {s t : State} {n : Byte} {f : Nat → Word} {j : Nat} (ht : s.AfterValues n f j t) :
    t.row = t.cfg.height ↔ s.emitted + j = s.cfg.width.toNat * s.cfg.height.toNat := by
  rw [ht.inv.done_iff, ht.emitted, ht.cfg]

/-- Settles O53: the state after the first values of a run or of an absolute run, whose last value may be the image's last pixel. -/
theorem rle8RecordPrefix : Obligations.Rle8RecordPrefix := by
  intro s hi hst hm
  refine ⟨fun l v j h0 h1 hj hle hroom => ?_, fun n j h0 h1 hn hj hle hlen hroom => ?_⟩ <;>
    obtain ⟨k, rfl⟩ := Nat.exists_eq_add_of_le' hj
  · obtain ⟨t, hrun, ht, htst, -, htp⟩ := run_values hi hst h0 h1 k hle hroom
    have hraws := ht.raws
    rw [hm, runValue_rle8, List.map_const', List.length_range] at hraws
    exact ⟨t, hrun, htst, htp, ht.remaining, ht.done_iff, hraws⟩
  · obtain ⟨t, hrun, ht, htst, -, htp⟩ := abs8_values hi hst hm h0 h1 hn k hle hlen hroom
    exact ⟨t, hrun, htst, htp, ht.remaining, ht.done_iff, ht.raws⟩

end Sys2Proof.Machine

/-! SUPPORT. The RLE8 sub-decoder: its two opcodes, their frames shared with RLE4, and its two emissions (41_rle8.md R120 to R123). -/

namespace Sys2Proof.Machine

/-! ## The opcodes -/

/-- Settles O9: the run opcode writes its registers after the emission, on every state. -/
theorem rle8RunResult : Obligations.Rle8RunResult := fun s l v hl =>
  ⟨_, exec_rle8Run s l v, .of_eq rfl rfl rfl, byte_pred_toNat hl, rfl, odd_eq_true _, rfl, rfl, rfl, rfl, .of_eq rfl rfl⟩

/-- Settles O10: by whether the window holds the literal byte. -/
theorem rle8AbsResult : Obligations.Rle8AbsResult := by
  intro s n hn
  refine ⟨fun ha => ?_, fun hshort => ?_⟩
  · exact ⟨_, exec_rle8Abs_avail ha n, .of_eq rfl rfl rfl, advance_one_pos ha, byte_pred_toNat (by omega), odd_eq_true _,
      odd_eq_true _, rfl, rfl, rfl, .of_eq rfl rfl⟩
  · exact ⟨_, exec_rle8Abs_empty hshort n, s.endsTo_raiseEnd .truncated⟩

/-! ## The frames of the opcodes with operands -/

/-- Settles O18: neither mode's run writes the registers named. -/
theorem runFrame : Obligations.RunFrame := by
  rintro i l v s t (rfl | rfl) h
  · rw [exec_rle8Run] at h
    cases h
    exact ⟨rfl, rfl, rfl, rfl, fun _ => rfl⟩
  · rw [exec_rle4Run] at h
    cases h
    exact ⟨rfl, rfl, rfl, rfl, fun _ => rfl⟩

/-- An absolute run of either mode without a literal byte (R122, R143). -/
theorem exec_abs_empty {i : Instr} {n : Byte} {s : State} (hi : i = .rle8Abs n ∨ i = .rle4Abs n)
    (h : s.cfg.len.toNat < s.pos.toNat + 1) : exec i s = .next (s.raiseEnd .truncated) := by
  rcases hi with rfl | rfl
  · exact exec_rle8Abs_empty h n
  · exact exec_rle4Abs_empty h n

/-- Settles O19: with a literal byte the run enters ABSOLUTE, and only RLE8 consumes the byte; without one `raise End` freezes the rest. -/
theorem absFrame : Obligations.AbsFrame := by
  intro i n s t hi h
  by_cases ha : s.pos.toNat + 1 ≤ s.cfg.len.toNat
  · rcases hi with rfl | rfl
    · rw [exec_rle8Abs_avail ha] at h
      cases h
      exact ⟨rfl, rfl, fun _ => rfl, fun _ => ⟨rfl, nofun⟩, nofun⟩
    · rw [exec_rle4Abs_avail ha] at h
      cases h
      exact ⟨rfl, rfl, fun _ => rfl, fun _ => ⟨rfl, fun _ => rfl⟩, nofun⟩
  · rw [exec_abs_empty hi (by omega)] at h
    cases h
    exact ⟨rfl, rfl, fun _ => rfl, fun hne => absurd rfl hne, fun _ => ⟨rfl, rfl, rfl, rfl, rfl, rfl⟩⟩

/-! ## The emissions -/

theorem State.runRaw_rle8 {s : State} (hm : s.cfg.mode = .rle8) : s.runRaw = rawOfByte s.value := by
  rw [State.runRaw, hm]

/-- An RLE8 absolute emission without a byte at the cursor (R123). -/
theorem step_literal8_short {s : State} (hst : s.st = .absolute) (hd : s.row ≠ s.cfg.height) (hm : s.cfg.mode = .rle8)
    (hr : s.remaining ≠ 0) (hshort : s.cfg.len.toNat < s.pos.toNat + 1) : step s = .next (s.raiseEnd .truncated) := by
  rw [step_absolute hst hd, if_neg hr]
  simp only [absEmission, hm, rle8AbsEmission]
  exact rle8Literal_empty hshort _

end Sys2Proof.Machine

/-! The two theorems below stand outside `Machine`, where their names are those of the micro-steps themselves. -/

namespace Sys2Proof

open Machine

/-- Settles O22: the emission of a run, whose value in RLE8 is `value` widened. -/
theorem rle8RunEmission : Obligations.Rle8RunEmission := by
  intro s hst hm hr hd
  have hstep := step_runEmission hst hd (byte_ne_zero.mpr hr)
  rw [State.runRaw_rle8 hm] at hstep
  exact ⟨_, hstep, .of_eq rfl rfl rfl, byte_pred_toNat hr, hst, rfl, rfl, rfl, rfl, rfl, .of_eq rfl rfl⟩

/-- Settles O24: by whether the window holds the literal byte. -/
theorem rle8AbsEmission : Obligations.Rle8AbsEmission := by
  intro s hst hm hr hd
  have hr0 := byte_ne_zero.mpr hr
  refine ⟨fun ha => ?_, fun hshort => ?_⟩
  · exact ⟨_, step_literal8 hst hd hm hr0 ha, .of_eq rfl rfl rfl, advance_one_pos ha, byte_pred_toNat hr, hst, rfl, rfl, rfl, rfl,
      .of_eq rfl rfl⟩
  · exact ⟨_, step_literal8_short hst hd hm hr0 hshort, s.endsTo_raiseEnd .truncated⟩

end Sys2Proof

/-! SUPPORT. The RLE4 sub-decoder: the nibble selector, its two opcodes and its two emissions, a record up to any value, and the
low nibble that no literal uses (42_rle4.md R140 to R147). -/

namespace Sys2Proof.Machine

/-! ## The selector and the opcodes -/

/-- Settles O29: `k - 1` and `n` differ in parity exactly when `n - k` is even. -/
theorem selectorLaw : Obligations.SelectorLaw := by
  intro n k hk hkn
  rw [wantLeft_eq_true, odd_eq_false]
  omega

/-- Settles O11: the run opcode writes its registers after the emission, on every state. -/
theorem rle4RunResult : Obligations.Rle4RunResult := by
  intro s l v hl
  rw [← rawOfNibble_high]
  exact ⟨_, exec_rle4Run s l v, .of_eq rfl rfl rfl, byte_pred_toNat hl, rfl, odd_eq_true _, rfl, rfl, rfl, rfl, .of_eq rfl rfl⟩

/-- Settles O12: by whether the window holds the literal byte. -/
theorem rle4AbsResult : Obligations.Rle4AbsResult := by
  intro s n hn
  refine ⟨fun ha => ?_, fun hshort => ?_⟩
  · rw [← rawOfNibble_high]
    exact ⟨_, exec_rle4Abs_avail ha n, .of_eq rfl rfl rfl, rfl, byte_pred_toNat (by omega), odd_eq_true _, odd_eq_true _, rfl, rfl,
      rfl, .of_eq rfl rfl⟩
  · exact ⟨_, exec_rle4Abs_empty hshort n, s.endsTo_raiseEnd .truncated⟩

/-! ## The emissions -/

theorem State.runRaw_rle4_high {s : State} (hm : s.cfg.mode = .rle4) (hw : s.wantsLeft = true) :
    s.runRaw = BitVec.ofNat 32 (s.value.toNat / 16) := by
  rw [State.runRaw, hm, hw]
  exact rawOfNibble_high _

theorem State.runRaw_rle4_low {s : State} (hm : s.cfg.mode = .rle4) (hw : s.wantsLeft = false) :
    s.runRaw = BitVec.ofNat 32 (s.value.toNat % 16) := by
  rw [State.runRaw, hm, hw]
  exact rawOfNibble_low _

/-- A high nibble's byte is consumed only with the last literal (R144). -/
theorem State.nibbleAdvance_high {s : State} (hw : s.wantsLeft = true) :
    s.nibbleAdvance = if s.remaining.toNat = 1 then 1 else 0 := by
  have hlast : s.remaining = 1 ↔ s.remaining.toNat = 1 := BitVec.toNat_inj.symm
  simp only [State.nibbleAdvance, hw, hlast, ne_eq, true_and, ite_not]

theorem State.nibbleAdvance_low {s : State} (hw : s.wantsLeft = false) : s.nibbleAdvance = 1 := by
  simp [State.nibbleAdvance, hw]

/-- The cursor after a high nibble whose byte lies in the window. -/
theorem State.advance_nibbleAdvance_high {s : State} (hw : s.wantsLeft = true) (ha : s.pos.toNat + 1 ≤ s.cfg.len.toNat) :
    (s.advance s.nibbleAdvance).pos.toNat = if s.remaining.toNat = 1 then s.pos.toNat + 1 else s.pos.toNat := by
  rw [State.nibbleAdvance_high hw]
  split
  · exact advance_one_pos ha
  · rw [State.advance_zero]

/-- An RLE4 absolute emission that takes a high nibble, without a byte at the cursor (R144). -/
theorem step_literal4_short {s : State} (hst : s.st = .absolute) (hd : s.row ≠ s.cfg.height) (hm : s.cfg.mode = .rle4)
    (hr : s.remaining ≠ 0) (hw : s.wantsLeft = true) (hshort : s.cfg.len.toNat < s.pos.toNat + 1) :
    step s = .next (s.raiseEnd .truncated) := by
  rw [step_absolute hst hd, if_neg hr]
  simp only [absEmission, hm, rle4AbsEmission, hw, if_true]
  exact rle4HighLiteral_empty hshort _

/-! ## The first values of a record -/

/-- Settles O54: the state after the first values of a run or of an absolute run, whose last value may be the image's last pixel. -/
theorem rle4RecordPrefix : Obligations.Rle4RecordPrefix := by
  intro s hi hst hm
  refine ⟨fun l v j h0 h1 hj hle hroom => ?_, fun n j h0 h1 hn hj hle hlen hroom => ?_⟩ <;>
    obtain ⟨k, rfl⟩ := Nat.exists_eq_add_of_le' hj
  · obtain ⟨t, hrun, ht, htst, -, htp⟩ := run_values hi hst h0 h1 k hle hroom
    rw [hm, runValue_rle4] at ht
    exact ⟨t, hrun, htst, htp, ht.remaining, ht.done_iff, ht.raws⟩
  · obtain ⟨t, hrun, ht, htst, -, htp⟩ := abs4_values hi hst hm h0 h1 hn k hle hlen hroom
    exact ⟨t, hrun, htst, htp, ht.remaining, ht.done_iff, ht.raws⟩

/-! ## The unused low nibble -/

theorem highNibble_eq_of_div {a b : Byte} (h : a.toNat / 16 = b.toNat / 16) : highNibble a = highNibble b :=
  BitVec.eq_of_toNat_eq (by rw [highNibble_toNat, highNibble_toNat, h])

/-- An RLE4 absolute emission that takes a high nibble depends on no other nibble of the window (R144). -/
theorem rle4AbsEmission_withMem_high {s : State} {m : Memory} (hw : s.wantsLeft = true)
    (hread : highNibble (m.read s.pos.toNat) = highNibble (s.mem.read s.pos.toNat)) :
    rle4AbsEmission (s.withMem m) = onNext (·.withMem m) (rle4AbsEmission s) := by
  simp only [rle4AbsEmission, State.withMem_wantsLeft, hw, if_true]
  refine rle4HighLiteral_withMem (fun _ => hread) fun t => ?_
  rw [apply_ite (State.withMem · m)]
  rfl

/-- The last literal of a run of odd length takes the high nibble (R146). -/
theorem State.wantsLeft_last_odd {s : State} (hr : s.remaining = 1) (hp : s.parity = true) : s.wantsLeft = true := by
  rw [State.wantsLeft, hr, hp]
  rfl

/-- Settles O50: the last literal takes the high nibble, so the step reads no other nibble. -/
theorem unusedLowNibble : Obligations.UnusedLowNibble := by
  intro s m hst hm hr hp hagree
  by_cases hd : s.row = s.cfg.height
  · exact step_withMem_after_end (.inr hd) m
  · have hr0 : s.remaining ≠ 0 := by simp [hr]
    rw [step_absolute hst hd, step_absolute (s := s.withMem m) hst hd, State.withMem_remaining, if_neg hr0, if_neg hr0]
    simp only [absEmission, State.withMem_cfg, hm]
    exact rle4AbsEmission_withMem_high (State.wantsLeft_last_odd hr hp) (highNibble_eq_of_div hagree)

end Sys2Proof.Machine

/-! The two theorems below stand outside `Machine`, where their names are those of the micro-steps themselves. -/

namespace Sys2Proof

open Machine

/-- Settles O23: the emission of a run, whose value in RLE4 is the nibble of `value` that `want_left` selects. -/
theorem rle4RunEmission : Obligations.Rle4RunEmission := by
  intro s hst hm hr hd
  refine ⟨_, step_runEmission hst hd (byte_ne_zero.mpr hr), fun hleft => ?_, fun hright => ?_, byte_pred_toNat hr, hst, rfl, rfl,
    rfl, rfl, rfl, .of_eq rfl rfl⟩
  · rw [State.runRaw_rle4_high hm ((wantLeft_eq_true _ _).mpr hleft)]
    exact .of_eq rfl rfl rfl
  · rw [State.runRaw_rle4_low hm ((wantLeft_eq_false _ _).mpr hright)]
    exact .of_eq rfl rfl rfl

/-- Settles O25: by the nibble `want_left` selects, and for a high one by whether the window holds the byte. -/
theorem rle4AbsEmission : Obligations.Rle4AbsEmission := by
  intro s hst hm hr hd
  have hr0 := byte_ne_zero.mpr hr
  refine ⟨fun hw ha => ?_, fun hw hshort => ?_, fun hw ha => ?_⟩ <;> change s.wantsLeft = _ at hw
  · have hstep := step_literal4 hst hd hm hr0 ha
    rw [hw, selectNibble_true, rawOfNibble_high] at hstep
    exact ⟨_, hstep, .of_eq rfl rfl rfl, State.advance_nibbleAdvance_high hw ha, byte_pred_toNat hr, hst, rfl, rfl, rfl, rfl,
      .of_eq rfl rfl⟩
  · exact ⟨_, step_literal4_short hst hd hm hr0 hw hshort, s.endsTo_raiseEnd .truncated⟩
  · have hstep := step_literal4 hst hd hm hr0 ha
    rw [hw, selectNibble_false, rawOfNibble_low, State.nibbleAdvance_low hw] at hstep
    exact ⟨_, hstep, .of_eq rfl rfl rfl, advance_one_pos ha, byte_pred_toNat hr, hst, rfl, rfl, rfl, rfl, .of_eq rfl rfl⟩

end Sys2Proof

/-! SUPPORT. The escapes of both modes: one equation per escape, its result, and the frame they share (43_escapes.md R160 to R162). -/

namespace Sys2Proof.Machine

/-! ## One equation per escape -/

/-- The end of line has one meaning in both modes (R160). -/
theorem exec_eol {i : Instr} (hi : i = .rle8Eol ∨ i = .rle4Eol) (s : State) : exec i s = endOfLine s := by
  rcases hi with rfl | rfl <;> rfl

/-- The end of bitmap looks at no register and no byte (R161). -/
theorem exec_eob {i : Instr} (hi : i = .rle8Eob ∨ i = .rle4Eob) (s : State) : exec i s = .next (s.raiseEnd .eob) := by
  rcases hi with rfl | rfl <;> rfl

/-- Delta looks at no register and no byte (R162). -/
theorem exec_delta {i : Instr} (hi : i = .rle8Delta ∨ i = .rle4Delta) (s : State) :
    exec i s = .next (s.raiseEnd .delta) := by
  rcases hi with rfl | rfl <;> rfl

/-! ## Results -/

/-- Settles O13: by whether the cursor is at the start of a row. -/
theorem endOfLineResult : Obligations.EndOfLineResult := by
  intro i s hi
  rw [exec_eol hi]
  exact ⟨endOfLine_at_start, fun hc => ⟨_, endOfLine_midrow hc, s.endsTo_raiseEnd .eolMidrow⟩⟩

/-- Settles O14: the end of bitmap is `raise End(EOB)`. -/
theorem endOfBitmapResult : Obligations.EndOfBitmapResult := fun _ s hi =>
  ⟨_, exec_eob hi s, s.endsTo_raiseEnd .eob⟩

/-- Settles O15: delta is `raise End(DELTA)`. -/
theorem deltaResult : Obligations.DeltaResult := fun _ s hi =>
  ⟨_, exec_delta hi s, s.endsTo_raiseEnd .delta⟩

/-! ## The frame -/

/-- An end of line leaves the state or ends decoding. -/
theorem endOfLine_cases (s : State) : endOfLine s = .next s ∨ ∃ c, endOfLine s = .next (s.raiseEnd c) := by
  by_cases hc : s.col = 0
  · exact .inl (endOfLine_at_start hc)
  · exact .inr ⟨_, endOfLine_midrow hc⟩

/-- An escape leaves the state or ends decoding. -/
theorem exec_escape_cases {i : Instr} (hi : i ∈ [Instr.rle8Eol, .rle8Eob, .rle8Delta, .rle4Eol, .rle4Eob, .rle4Delta])
    (s : State) : exec i s = .next s ∨ ∃ c, exec i s = .next (s.raiseEnd c) := by
  simp only [List.mem_cons, List.not_mem_nil, or_false] at hi
  rcases hi with rfl | rfl | rfl | rfl | rfl | rfl
  · exact endOfLine_cases s
  · exact .inr ⟨_, exec_eob (.inl rfl) s⟩
  · exact .inr ⟨_, exec_delta (.inl rfl) s⟩
  · exact endOfLine_cases s
  · exact .inr ⟨_, exec_eob (.inr rfl) s⟩
  · exact .inr ⟨_, exec_delta (.inr rfl) s⟩

/-- Settles O17: of the two outcomes of an escape the first is the state itself, and `raise End` writes `st` and `cause` alone. -/
theorem escapeFrame : Obligations.EscapeFrame := by
  intro i s t hi h
  rcases exec_escape_cases hi s with he | ⟨c, he⟩ <;> cases he.symm.trans h
  · exact ⟨rfl, rfl, rfl, rfl, rfl, rfl, rfl, fun _ => rfl⟩
  · exact ⟨rfl, rfl, rfl, rfl, rfl, rfl, rfl, s.raiseEnd_byteAt c⟩

end Sys2Proof.Machine

/-! SUPPORT. The order of the pixels answered, and what stands in the record at the end: a position of the bottom-up order is where the
counters stand (44_pixel_output.md R180, R182), no position comes back before the image is complete (R186), and a call after the end is
answered `NONE` (R183, R185). -/

namespace Sys2Proof.Machine

/-! ## Positions of the bottom-up order -/

/-- The counters stand at the position their count numbers (R28, R29, R180). -/
theorem State.positionAt_emitted {s : State} (hcol : s.col.toNat < s.cfg.width.toNat) :
    positionAt s.cfg s.emitted = (s.col.toNat, s.cfg.height.toNat - 1 - s.row.toNat) := by
  obtain ⟨hdiv, hmod⟩ := (Nat.div_mod_unique (a := s.emitted) (d := s.row.toNat) (by omega : 0 < s.cfg.width.toNat)).mpr
    ⟨by rw [State.emitted, Nat.add_comm, Nat.mul_comm], hcol⟩
  rw [positionAt, hdiv, hmod]

/-- The image's `W·H` positions are distinct (R186). -/
theorem positionAt_inj {c : Config} {i j : Nat} (hi : i < c.width.toNat * c.height.toNat)
    (hj : j < c.width.toNat * c.height.toNat) (h : positionAt c i = positionAt c j) : i = j := by
  obtain ⟨hcol, hrow⟩ := Prod.mk.inj h
  have hri := Nat.div_lt_of_lt_mul hi
  have hrj := Nat.div_lt_of_lt_mul hj
  have hdiv : i / c.width.toNat = j / c.width.toNat := by omega
  rw [← Nat.div_add_mod i c.width.toNat, ← Nat.div_add_mod j c.width.toNat, hdiv, hcol]

/-- Before the image is complete `H − 1 − row` does not wrap. -/
theorem State.pixelRow_toNat {s : State} (hrow : s.row.toNat < s.cfg.height.toNat) :
    (s.cfg.height - 1 - s.row).toNat = s.cfg.height.toNat - 1 - s.row.toNat := by
  bv_omega

/-! ## A step keeps the order -/

/-- A step that answers no pixel and leaves the counters keeps the order. -/
theorem State.InOrder.of_pixels {s t : State} (ho : s.InOrder) (hcfg : t.cfg = s.cfg) (hp : t.pixels = s.pixels)
    (hcol : t.col = s.col) (hrow : t.row = s.row) : t.InOrder where
  count := by rw [hp, ho.count, State.emitted, State.emitted, hcfg, hcol, hrow]
  positions := by
    rw [hp, hcfg]
    exact ho.positions

/-- An emission before the image is complete answers the next position of the order. -/
theorem State.InOrder.of_emitsTo {s t : State} {raw : Word} (ho : s.InOrder) (hcfg : t.cfg = s.cfg) (he : s.EmitsTo raw t)
    (hcol : s.col.toNat < s.cfg.width.toNat) (hrow : s.row.toNat < s.cfg.height.toNat) : t.InOrder where
  count := by
    rw [State.pixels_of_pixel he.response, List.length_append, ho.count, he.emitted hcfg hcol hrow, List.length_singleton]
  positions j p hj := by
    rw [hcfg]
    rw [State.pixels_of_pixel he.response] at hj
    rcases Nat.lt_or_ge j s.pixels.length with hlt | hge
    · rw [List.getElem?_append_left hlt] at hj
      exact ho.positions j p hj
    · rw [List.getElem?_append_right hge, List.getElem?_singleton, Option.ite_none_right_eq_some, Option.some.injEq] at hj
      obtain ⟨hlast, rfl⟩ := hj
      rw [show j = s.emitted by rw [← ho.count]; omega, State.positionAt_emitted hcol, State.pixelRow_toNat hrow]

/-- Settles O39: a step answers no pixel and leaves the counters, or answers the pixel at the counters and moves them on by one. -/
theorem stepKeepsPixelOrder : Obligations.StepKeepsPixelOrder := by
  intro s t hi ho h
  obtain ⟨hcfg, -, ⟨hr, hcol, hrow, -⟩ | ⟨hr, hcol, hrow, -⟩ | ⟨raw, he, hd, -⟩⟩ := step_response h
  · exact ho.of_pixels hcfg (State.pixels_of_resps hr) hcol hrow
  · exact ho.of_pixels hcfg (State.pixels_of_none hr) hcol hrow
  · exact ho.of_emitsTo hcfg he hi.inRange.col (hi.row_lt hd)

/-! ## How many pixels, and which -/

/-- Settles O40: the count is that of the counters, and two pixels at one position have one place in the order. -/
theorem pixelCountLaw : Obligations.PixelCountLaw := by
  intro s hi ho
  have hle : s.pixels.length ≤ s.cfg.width.toNat * s.cfg.height.toNat := ho.count ▸ hi.emitted_le
  refine ⟨hle, List.nodup_iff_injective_getElem.mpr fun ⟨i, hil⟩ ⟨j, hjl⟩ hij => Fin.ext ?_⟩
  rw [List.length_map] at hil hjl
  simp only [List.getElem_map, Prod.mk.injEq] at hij
  refine positionAt_inj (hil.trans_le hle) (hjl.trans_le hle) ?_
  rw [← ho.positions i _ (List.getElem?_eq_getElem hil), ← ho.positions j _ (List.getElem?_eq_getElem hjl), hij.1, hij.2]

/-! ## The `NONE` of the record, and a call after the end -/

/-- Settles O42: after the end `st` and `row` stand; before it no `NONE` stands in the record, and a step adds one only at an end. -/
theorem stepKeepsNoneOnlyAtEnd : Obligations.StepKeepsNoneOnlyAtEnd := by
  intro s t hs h hmem
  by_cases hend : s.st = .ended ∨ s.row = s.cfg.height
  · cases (step_after_end hend).symm.trans h
    exact hend
  · have hnone : .none ∉ s.resps := fun hm => hend (hs hm)
    obtain ⟨-, -, ⟨hr, -⟩ | ⟨-, -, -, hstop⟩ | ⟨raw, he, -⟩⟩ := step_response h
    · exact absurd (hr ▸ hmem) hnone
    · exact hstop
    · rw [he.response] at hmem
      exact absurd (by simpa using hmem) hnone

/-- A call whose first step answers it is that step. -/
theorem call_of_step {s t : State} {r : Response} (h : step s = .next t) (hr : t.resps = s.resps ++ [r]) : call s = .next t := by
  rw [call, State.callBound, Nat.add_comm]
  exact callLoop_answered h hr

/-- Settles O43: the first step of such a call answers it and writes the record alone, which no output shows. -/
theorem callAfterTheEnd : Obligations.CallAfterTheEnd := fun _ hend =>
  ⟨call_of_step (step_after_end hend) rfl, rfl⟩

end Sys2Proof.Machine

/-! SUPPORT. The steps that enter END, and where each leaves the cursor (60_exceptions.md R201, R202). -/

namespace Sys2Proof.Machine

/-- An end raised after the fetch freezes the same registers as one raised before it, the cursor apart (R201). -/
theorem State.endsTo_advance_raiseEnd (s : State) (n : Nat) (c : Cause) :
    s.EndsTo c (s.advance n).pos ((s.advance n).raiseEnd c) :=
  ⟨rfl, rfl, rfl, rfl, rfl, rfl, rfl, rfl, rfl, rfl, .of_eq rfl rfl⟩

/-- Within the ranges a cursor with no byte left stands at the end of the window (R34). -/
theorem State.InRange.pos_eq_len {s : State} (hi : s.InRange) (h : s.cfg.len.toNat < s.pos.toNat + 1) : s.pos = s.cfg.len :=
  BitVec.eq_of_toNat_eq (Nat.le_antisymm hi.pos (Nat.le_of_lt_succ h))

/-- An opcode that is the last of the window leaves the cursor at its end (R102). -/
theorem State.advance_two_pos_eq_len {s : State} (h : s.pos.toNat + 2 = s.cfg.len.toNat) : (s.advance 2).pos = s.cfg.len :=
  BitVec.eq_of_toNat_eq ((advance_two_pos h.le).trans h)

/-- The two bytes of an opcode that lies in the window, as reads (R51, R102). -/
theorem State.byteAt_opcode {s : State} {b0 b1 : Byte} (h : s.pos.toNat + 2 ≤ s.cfg.len.toNat)
    (h0 : s.mem.read s.pos.toNat = b0) (h1 : s.mem.read (s.pos.toNat + 1) = b1) :
    s.byteAt s.pos.toNat = some b0 ∧ s.byteAt (s.pos.toNat + 1) = some b1 :=
  ⟨State.byteAt_eq_some.mpr ⟨by omega, h0⟩, State.byteAt_eq_some.mpr ⟨by omega, h1⟩⟩

/-- Settles O28: of the effects of a step seven enter END, each a row of the table; the others leave `st` outside it. -/
theorem everyEnd : Obligations.EveryEnd := by
  intro s t hi hs h ht
  cases step_effect h with
  | fetchShort _ hst ha => exact ⟨s.endsTo_raiseEnd .truncated, .inl ⟨hst, ha, rfl, rfl⟩⟩
  | absShort _ hst ha h0 hn =>
    obtain ⟨hb0, hb1⟩ := State.byteAt_opcode ha.le h0 rfl
    exact ⟨s.endsTo_advance_raiseEnd 2 .truncated,
      .inr (.inl ⟨hst, hb0, rfl, .inl ⟨_, hb1, hn, rfl, State.advance_two_pos_eq_len ha⟩⟩)⟩
  | eobEnd _ hst ha h0 h1 =>
    obtain ⟨hb0, hb1⟩ := State.byteAt_opcode ha h0 h1
    exact ⟨s.endsTo_advance_raiseEnd 2 .eob, .inr (.inl ⟨hst, hb0, rfl, .inr (.inl ⟨hb1, rfl⟩)⟩)⟩
  | deltaEnd _ hst ha h0 h1 =>
    obtain ⟨hb0, hb1⟩ := State.byteAt_opcode ha h0 h1
    exact ⟨s.endsTo_advance_raiseEnd 2 .delta, .inr (.inl ⟨hst, hb0, rfl, .inr (.inr (.inl ⟨hb1, rfl⟩))⟩)⟩
  | eolEnd _ hst ha h0 h1 hcol =>
    obtain ⟨hb0, hb1⟩ := State.byteAt_opcode ha h0 h1
    exact ⟨s.endsTo_advance_raiseEnd 2 .eolMidrow,
      .inr (.inl ⟨hst, hb0, rfl, .inr (.inr (.inr ⟨hb1, hcol, rfl⟩))⟩)⟩
  | literalShort _ hst hr _ ha =>
    exact ⟨s.endsTo_raiseEnd .truncated, .inr (.inr ⟨hst, .inl hr, rfl, rfl, hi.inRange.pos_eq_len ha⟩)⟩
  | padShort _ hst _ hpad ha =>
    exact ⟨s.endsTo_raiseEnd .truncated, .inr (.inr ⟨hst, .inr hpad, rfl, rfl, hi.inRange.pos_eq_len ha⟩)⟩
  | afterEnd | eolSkip | runEmission | literal8 | literalHigh | literalLastHigh | literalLow => exact absurd ht hs
  | abs8 | abs4 | run8 | run4 | runEpilogue | absEpilogue | absPad => cases ht

end Sys2Proof.Machine
